-- ==== Sys2Proof/Word.lean ====
section
/-! DEFINITION. The two word types of the OAEP core: a byte (R15) and a 32-bit bus word or register (R18). -/

namespace Sys2Proof

/-- A byte, an unsigned value 0..255 (R15). -/
abbrev Byte := BitVec 8

/-- A bus word or a register: 32 bits, bit 0 the least significant, unsigned (R18). -/
abbrev Word := BitVec 32

end Sys2Proof
end

