-- ==== Sys2Proof/Config.lean ====
section
/-! DEFINITION. What an instance of the block fixes (R10, R14) and the free values of the spec.
The free values are opaque constants with no body: nothing in Lean can evaluate one or prove a value of it. -/

namespace Sys2Proof

/-- Which hash an instance has (R3, R11). The spec leaves it open (D9) and names three (R14). -/
inductive HashSel where
  /-- A hash of which only R11 is known: every digest has H_LEN bytes. `id` tells such hashes apart. -/
  | uninterpreted (id : Nat)
  /-- TOY4, the spec's own hash of 95_test_vectors.md section 2. -/
  | toy4
  /-- SHA-1. PRESUMED: from general knowledge (G1), not from the source. Log entry 2. -/
  | sha1
deriving DecidableEq, Repr

/-- The instantiation parameters of R10. -/
structure Params where
  /-- `H_LEN`, digest length in bytes -/
  hLen      : Nat
  /-- `HASH_MAX_IN`, largest hash input length in bytes -/
  hashMaxIn : Nat
  /-- `K_MAX`, largest k accepted, capacity of MSG_BUF and EM_BUF -/
  kMax      : Nat
  /-- `L_MAX`, capacity of LABEL_BUF -/
  lMax      : Nat
  /-- `IN_MAX`, capacity of IN_BUF -/
  inMax     : Nat
  /-- `OUT_MAX`, capacity of OUT_BUF -/
  outMax    : Nat
  /-- `BASE`, bus address of the block's offset 0 -/
  base      : Nat
  /-- `HASH` -/
  hash      : HashSel
deriving DecidableEq, Repr

/-- Free value: byte `i` of the digest of `x` under the uninterpreted hash `id` (R11, I1). DESIGN CHOICE, log entry 2. -/
opaque Config.hashByte (id : Nat) (x : List Byte) (i : Nat) : Byte

/-- Free value: byte `i` of the seed taken by draw number `n` (R134, I6). DESIGN CHOICE, log entry 3. -/
opaque Config.freeSeedByte (n i : Nat) : Byte

/-- Free value: the word that read number `n` of a buffer while BUSY returns (R99, I8). DESIGN CHOICE, log entry 4. -/
opaque Config.freeWord (n : Nat) : Word

/-- Free value: what an instance chooses for its open parameter `i` (R10, I2 to I5). DESIGN CHOICE, log entry 1. -/
opaque Config.freeParam (i : Nat) : Nat

/-- The instantiation REF of R14: H_LEN as in the source's example, HASH unnamed.
The spec gives it no BASE: 0 here, DESIGN CHOICE, log entry 15. -/
def Config.ref : Params :=
  { hLen := 20, hashMaxIn := 2 ^ 61 - 1, kMax := 512, lMax := 256, inMax := 512, outMax := 512,
    base := 0, hash := .uninterpreted 0 }

/-- The instantiation TOY of R14, for hand-checkable vectors. BASE as in `Config.ref`. -/
def Config.toy : Params :=
  { hLen := 4, hashMaxIn := 2 ^ 61 - 1, kMax := 64, lMax := 16, inMax := 64, outMax := 64,
    base := 0, hash := .toy4 }

/-- The instantiation SHA of R14: as REF with HASH = SHA-1 (general knowledge, G1). -/
def Config.sha : Params := { Config.ref with hash := .sha1 }

end Sys2Proof
end

