-- ==== Sys2Proof/Syntax.lean ====
section
/-! DEFINITION. The four commands of spec/opcode_table.json, as the decoder gives them (R111, R112). -/

namespace Sys2Proof

/-- SEED_SRC, bit 8 of the ENCODE command word (R112). -/
inductive SeedSrc where
  /-- 0: a fresh random seed drawn at this command -/
  | fresh
  /-- 1: the host-supplied seed `SEED_BUF[0:H_LEN]` -/
  | seedBuf
deriving DecidableEq, Repr

/-- One constructor per row of the opcode table. A command word carries no other operand (R116). -/
inductive Instr where
  /-- ENCODE (R160) -/
  | encode (seedSrc : SeedSrc)
  /-- DECODE (R180) -/
  | decode
  /-- MGF1 (R140) -/
  | mgf1
  /-- HASH (R145) -/
  | hash
deriving DecidableEq, Repr

end Sys2Proof
end

