-- ==== Sys2Proof/WellFormed.lean ====
section
/-! DEFINITION. Well-formedness: of an instance's parameters (R13), and of the fields of a command word (R113).
A term of `Instr` has no ill-formed value: what could be ill formed about a command word stands in its fields. -/

namespace Sys2Proof

/-! ### Parameters: P1 to P7 of R13 -/

/-- P1: 1 ≤ H_LEN ≤ 4096. -/
def Params.p1 (p : Params) : Bool := decide (1 ≤ p.hLen) && decide (p.hLen ≤ 4096)

/-- P2: 2·H_LEN + 2 ≤ K_MAX ≤ 4096. -/
def Params.p2 (p : Params) : Bool := decide (2 * p.hLen + 2 ≤ p.kMax) && decide (p.kMax ≤ 4096)

/-- P3: L_MAX ≤ 4096. -/
def Params.p3 (p : Params) : Bool := decide (p.lMax ≤ 4096)

/-- P4: IN_MAX ≤ 4096. -/
def Params.p4 (p : Params) : Bool := decide (p.inMax ≤ 4096)

/-- P5: H_LEN ≤ OUT_MAX ≤ 4096. -/
def Params.p5 (p : Params) : Bool := decide (p.hLen ≤ p.outMax) && decide (p.outMax ≤ 4096)

/-- P6: HASH_MAX_IN ≥ max(L_MAX, IN_MAX + 4, K_MAX + 4). -/
def Params.p6 (p : Params) : Bool :=
  decide (max p.lMax (max (p.inMax + 4) (p.kMax + 4)) ≤ p.hashMaxIn)

/-- P7: every digest has H_LEN bytes. A named hash has one digest length of its own;
an uninterpreted hash has H_LEN by its definition (`Machine.hash`). -/
def Params.p7 (p : Params) : Bool :=
  match p.hash with
  | .uninterpreted _ => true
  | .toy4 => decide (p.hLen = 4)
  | .sha1 => decide (p.hLen = 20)

/-- R13: a parameter choice is well formed only if P1 to P7 all hold. -/
def Params.wellFormed (p : Params) : Bool :=
  p.p1 && p.p2 && p.p3 && p.p4 && p.p5 && p.p6 && p.p7

/-- An instance of the block: parameters that meet R13. The model refuses any other choice: it cannot be built. -/
structure Cfg where
  params : Params
  ok     : params.wellFormed = true
deriving DecidableEq, Repr

/-- Parameters that meet P1 to P7 whatever the seven numbers are, and every parameter choice with an
uninterpreted hash that meets them is one of these (`Params.clamp_surjective`). -/
def Params.clamp (a b c d e f g : Nat) (id : Nat) : Params :=
  let h := 1 + a % 2047
  let k := 2 * h + 2 + b % (4097 - (2 * h + 2))
  let l := c % 4097
  let i := d % 4097
  { hLen := h, kMax := k, lMax := l, inMax := i, outMax := h + e % (4097 - h),
    hashMaxIn := max l (max (i + 4) (k + 4)) + f, base := g, hash := .uninterpreted id }

/-- P1 to P6 as one list of inequalities over the numbers. -/
theorem Params.wellFormed_iff (p : Params) : p.wellFormed = true ↔
    1 ≤ p.hLen ∧ p.hLen ≤ 4096 ∧ 2 * p.hLen + 2 ≤ p.kMax ∧ p.kMax ≤ 4096 ∧ p.lMax ≤ 4096 ∧
    p.inMax ≤ 4096 ∧ p.hLen ≤ p.outMax ∧ p.outMax ≤ 4096 ∧ p.lMax ≤ p.hashMaxIn ∧
    p.inMax + 4 ≤ p.hashMaxIn ∧ p.kMax + 4 ≤ p.hashMaxIn ∧ p.p7 = true := by
  simp only [Params.wellFormed, Params.p1, Params.p2, Params.p3, Params.p4, Params.p5, Params.p6,
    Bool.and_eq_true, decide_eq_true_eq, max_le_iff, and_assoc]

theorem Params.clamp_wellFormed (a b c d e f g id : Nat) :
    (Params.clamp a b c d e f g id).wellFormed = true := by
  have ha : a % 2047 < 2047 := Nat.mod_lt _ (by omega)
  have hb : b % (4097 - (2 * (1 + a % 2047) + 2)) < 4097 - (2 * (1 + a % 2047) + 2) :=
    Nat.mod_lt _ (by omega)
  have he : e % (4097 - (1 + a % 2047)) < 4097 - (1 + a % 2047) := Nat.mod_lt _ (by omega)
  have hc : c % 4097 < 4097 := Nat.mod_lt _ (by omega)
  have hd : d % 4097 < 4097 := Nat.mod_lt _ (by omega)
  rw [Params.wellFormed_iff]
  dsimp only [Params.clamp]
  refine ⟨?_, ?_, ?_, ?_, ?_, ?_, ?_, ?_, ?_, ?_, ?_, rfl⟩ <;> omega

/-- The instance whose every parameter is open: well formed, and nothing else is known of it. DESIGN CHOICE, log entry 1. -/
def Cfg.uninterpreted : Cfg :=
  ⟨Params.clamp (Config.freeParam 0) (Config.freeParam 1) (Config.freeParam 2) (Config.freeParam 3)
    (Config.freeParam 4) (Config.freeParam 5) (Config.freeParam 6) 0,
   Params.clamp_wellFormed _ _ _ _ _ _ _ _⟩

/-! ### Fields of a command word: R110, R113 -/

/-- The fields of the format CMD32 (R110). -/
structure CmdFields where
  /-- bits 3:0 -/
  op       : BitVec 4
  /-- bits 7:4, reserved -/
  rsvdLow  : BitVec 4
  /-- bit 8 -/
  seedSrc  : BitVec 1
  /-- bits 31:9, reserved -/
  rsvdHigh : BitVec 23
deriving DecidableEq, Repr

/-- OP is one of the four operations (R111). -/
def CmdFields.opcodeLegal (f : CmdFields) : Bool :=
  decide (f.op = 1) || decide (f.op = 2) || decide (f.op = 3) || decide (f.op = 4)

/-- R113: every reserved bit is 0, and SEED_SRC is 0 unless OP = 0x1. -/
def CmdFields.reservedLegal (f : CmdFields) : Bool :=
  decide (f.rsvdLow = 0) && decide (f.rsvdHigh = 0) && (decide (f.op = 1) || decide (f.seedSrc = 0))

/-- A command word with these fields is legal (R113, R115). -/
def CmdFields.wellFormed (f : CmdFields) : Bool := f.opcodeLegal && f.reservedLegal

end Sys2Proof
end

