-- ==== Sys2Proof/Decode.lean ====
section
/-! DEFINITION. The decoder of the command word (R114), total on every 32-bit word and rejecting by name,
and the encoder (R110 to R112). -/

namespace Sys2Proof

/-- Why a command word is illegal (R114, R213). -/
inductive IllegalReason where
  /-- BAD_OPCODE: OP not in 0x1..0x4 -/
  | badOpcode
  /-- RESERVED_BITS: a reserved bit or a misplaced SEED_SRC set -/
  | reservedBits
deriving DecidableEq, Repr

/-- ERRDETAIL of an ILLEGAL_COMMAND (R213). -/
def IllegalReason.detail : IllegalReason → BitVec 4
  | .badOpcode => 1
  | .reservedBits => 2

/-- What a command word decodes to: exactly one of these (R114). -/
inductive Decoded where
  | legal (i : Instr)
  | illegal (r : IllegalReason)
deriving DecidableEq, Repr

/-- The fields of a command word (R110). -/
def cmdFields (v : Word) : CmdFields :=
  { op := v.extractLsb' 0 4, rsvdLow := v.extractLsb' 4 4, seedSrc := v.extractLsb' 8 1,
    rsvdHigh := v.extractLsb' 9 23 }

/-- The operation of legal fields (R111, R112). -/
def CmdFields.instr (f : CmdFields) : Instr :=
  if f.op = 1 then .encode (if f.seedSrc = 1 then .seedBuf else .fresh)
  else if f.op = 2 then .decode
  else if f.op = 3 then .mgf1
  else .hash

/-- DecodeCmd of R114: BAD_OPCODE is tested before RESERVED_BITS. -/
def decodeCmd (v : Word) : Decoded :=
  let f := cmdFields v
  if f.opcodeLegal = false then .illegal .badOpcode
  else if f.reservedLegal = false then .illegal .reservedBits
  else .legal f.instr

/-- OP of a command (R111). -/
def Instr.opcode : Instr → BitVec 4
  | .encode _ => 1
  | .decode => 2
  | .mgf1 => 3
  | .hash => 4

/-- SEED_SRC of a command (R112, R113). -/
def Instr.seedSrcBit : Instr → BitVec 1
  | .encode .fresh => 0
  | .encode .seedBuf => 1
  | .decode => 0
  | .mgf1 => 0
  | .hash => 0

/-- The fields of a command's word (R110). -/
def Instr.fields (i : Instr) : CmdFields :=
  { op := i.opcode, rsvdLow := 0, seedSrc := i.seedSrcBit, rsvdHigh := 0 }

/-- The word with given fields: bits 31:9, 8, 7:4, 3:0 from the left (R110). -/
def CmdFields.word (f : CmdFields) : Word := f.rsvdHigh ++ f.seedSrc ++ f.rsvdLow ++ f.op

/-- The command word of a command (R110 to R113). -/
def encode (i : Instr) : Word := i.fields.word

/-- A row of spec/opcode_table.json: a word is of the row when its bits under `mask` are `value`. -/
structure OpcodeRow where
  value : Word
  mask  : Word
deriving DecidableEq, Repr

/-- The rows of spec/opcode_table.json, by command. -/
def Instr.row : Instr → OpcodeRow
  | .encode _ => ⟨0x00000001, 0xFFFFFEFF⟩
  | .decode => ⟨0x00000002, 0xFFFFFFFF⟩
  | .mgf1 => ⟨0x00000003, 0xFFFFFFFF⟩
  | .hash => ⟨0x00000004, 0xFFFFFFFF⟩

/-- The word matches the row. -/
def OpcodeRow.matchesWord (r : OpcodeRow) (v : Word) : Bool := decide (v &&& r.mask = r.value)

/-- The instruction of `nbits` bits whose bits are `w`, bit 0 the least significant of its one word.
There is no command longer than one 32-bit word (R118): bits of `w` at or above 32 that the table's
count would give make no command. DESIGN CHOICE, log entry 21. -/
def tableWord (nbits w : Nat) : Option Word :=
  let bits := w % 2 ^ nbits
  if bits < 2 ^ 32 then some (BitVec.ofNat 32 bits) else none

/-- The instruction the decoder reads from a table word, none where it refuses. -/
def decodeTableWord (nbits w : Nat) : Option Instr :=
  match tableWord nbits w with
  | none => none
  | some v =>
    match decodeCmd v with
    | .legal i => some i
    | .illegal _ => none

end Sys2Proof
end

