-- ==== Sys2Proof/Machine/State.lean ====
section
/-! DEFINITION. The state of the OAEP core (R70), the host's transactions (R81) and the environment's moves,
and the machine right after reset. -/

namespace Sys2Proof.Machine

/-- READ or WRITE (R81). -/
inductive AccessKind where
  | read
  | write
deriving DecidableEq, Repr

/-- The size of a transaction in bytes: 1, 2 or 4 (R81). -/
inductive AccessSize where
  | one
  | two
  | four
deriving DecidableEq, Repr

/-- A host transaction (R81). -/
structure Transaction where
  kind  : AccessKind
  off   : BitVec 16
  size  : AccessSize
  wdata : Word
deriving DecidableEq, Repr

/-- The block's answer to a transaction (R81): resp OK or ERR, and rdata where it has a meaning.
`read` and `written` are resp OK; `err` is resp ERR, whose rdata is 0. A WRITE answered OK has no rdata (DEDUCED, log entry 14). -/
inductive Answer where
  | read (rdata : Word)
  | written
  | err
deriving DecidableEq, Repr

/-- One move of the environment. Their order is the order in which things happen (R95, R216): every schedule of
host transactions, completions and resets is some list of moves. DESIGN CHOICE, log entry 5. -/
inductive Input where
  /-- the port delivers a transaction -/
  | transact (t : Transaction)
  /-- the core gets its turn: its completion step if it is BUSY, nothing if it is IDLE (R216) -/
  | core
  /-- the reset input `rst` is driven to this level (R240) -/
  | rst (level : Bool)
deriving DecidableEq, Repr

/-- The sequencer state (R31): IDLE, or BUSY with the accepted command, its opcode and its seed source (R67).
DEDUCED, log entry 16. -/
inductive Seq where
  | idle
  | busy (i : Instr)
deriving DecidableEq, Repr

/-- The bytes of the six buffers in canonical form, keyed by block offset (R80, R83): offsets strictly rising, no
cell of value 0x00. A byte that is not listed is 0x00, the reset content of every buffer (R70). -/
abbrev Memory := List Host.Cell

/-- The architectural state of one instance (R70; DEDUCED, log entry 19), its parameters, and four fields of the
model's own. -/
structure State where
  /-- the parameters of the instance: configuration, which no step changes (R69). DESIGN CHOICE, log entry 1. -/
  cfg       : Cfg
  /-- `SEQ` (R31) -/
  seq       : Seq
  /-- `CTRL.IRQ_EN` (R47) -/
  irqEn     : Bool
  /-- `STATUS.DONE` (R51) -/
  done      : Bool
  /-- `STATUS.ERRCODE` (R53) -/
  errCode   : BitVec 4
  /-- `STATUS.ERRDETAIL` (R54) -/
  errDetail : BitVec 4
  /-- `STATUS.BUSY_VIOL` (R55) -/
  busyViol  : Bool
  /-- `K` (R40) -/
  k         : Word
  /-- `MSG_LEN` (R41) -/
  msgLen    : Word
  /-- `LABEL_LEN` (R42) -/
  labelLen  : Word
  /-- `EM_LEN` (R43) -/
  emLen     : Word
  /-- `IN_LEN` (R44) -/
  inLen     : Word
  /-- `MASK_LEN` (R45) -/
  maskLen   : Word
  /-- `OUT_LEN` (R46) -/
  outLen    : Word
  /-- MSG_BUF, LABEL_BUF, SEED_BUF, EM_BUF, IN_BUF and OUT_BUF (R59), byte i of a buffer at offset WB + i -/
  mem       : Memory
  /-- the model's own: the environment's moves still to come, in order. DESIGN CHOICE, log entry 5. -/
  inputs    : List Input
  /-- the model's own: the answer to the last transaction the port was given, none if there is none. DESIGN CHOICE, log entry 6. -/
  answer    : Option Answer
  /-- the model's own: the level of the reset input (R240). DESIGN CHOICE, log entry 7. -/
  rst       : Bool
  /-- the model's own: how many free values have been drawn (R134, R99). DESIGN CHOICE, log entries 3 and 4. -/
  draws     : Nat
deriving DecidableEq, Repr

/-- Why the machine stops with a fault: there is no reason, and so no constructor. Nothing raises a fault, because in
this block an error is no trap (R219) and a bad access is answered ERR (R82, R84). Safe. -/
inductive Fault where
deriving DecidableEq, Repr

/-- Why a step has no meaning in the model. -/
inductive Refusal where
  /-- Raised by the arm of `exec` of a command that has no meaning yet. No arm raises it. Safe. -/
  | notModelled (mnemonic : String)
deriving DecidableEq, Repr

/-- An instance right after reset: every piece of state at the value of R70's table. -/
def State.resetWith (c : Cfg) : State :=
  { cfg := c, seq := .idle, irqEn := false, done := false, errCode := 0, errDetail := 0,
    busyViol := false, k := 0, msgLen := 0, labelLen := 0, emLen := 0, inLen := 0, maskLen := 0,
    outLen := 0, mem := [], inputs := [], answer := none, rst := false, draws := 0 }

/-- The machine right after reset (R240), of the instance whose parameters are all open (DESIGN CHOICE, log entry 1).
DESIGN CHOICE: the model's own fields start empty, no answer, rst released, no draw taken (log entries 3, 5, 6, 7). -/
def State.reset : State := State.resetWith Cfg.uninterpreted

end Sys2Proof.Machine
end

