-- ==== Sys2Proof/Machine/Bytes.lean ====
section
/-! DEFINITION. Byte strings and integers: the notation of 00_scope.md section 5, and the lanes of a bus word (R86). -/

namespace Sys2Proof.Machine

/-- `zeros(n)`: n bytes of 0x00 (R15). -/
def zeros (n : Nat) : List Byte := List.replicate n 0

/-- `A XOR B` of byte strings of equal length (R16). -/
def xorBytes (a b : List Byte) : List Byte := List.zipWith (· ^^^ ·) a b

/-- `X[a:b]`: the bytes at indices a ≤ i < b (R15). -/
def sliceOf (x : List Byte) (a b : Nat) : List Byte := (x.take b).drop a

/-- A byte string read as an integer, X[0] the most significant byte (R17). -/
def bigEndian (x : List Byte) : Nat := x.foldl (fun acc b => acc * 256 + b.toNat) 0

/-- `BE32(i)`: the 4-byte string of a counter, most significant byte first (R17). -/
def be32 (i : Nat) : List Byte :=
  let w : Word := BitVec.ofNat 32 i
  [w.extractLsb' 24 8, w.extractLsb' 16 8, w.extractLsb' 8 8, w.extractLsb' 0 8]

/-- `ceil(a / b)` for b ≥ 1: the least q with q·b ≥ a (R19). -/
def ceilDiv (a b : Nat) : Nat := (a + b - 1) / b

/-- `k = ceil(bit_length(n) / 8)` of a modulus n ≥ 1 (R21): what the host computes and writes to register K. -/
def modulusBytes (n : Nat) : Nat := ceilDiv (Nat.log2 n + 1) 8

/-- The four bytes of a bus word, lane 0 (bits 7:0) first (R86). -/
def bytesOfWord (w : Word) : List Byte :=
  [w.extractLsb' 0 8, w.extractLsb' 8 8, w.extractLsb' 16 8, w.extractLsb' 24 8]

/-- The bus word whose lanes 0 to 3 are the four bytes (R86). -/
def wordOfBytes (b0 b1 b2 b3 : Byte) : Word := b3 ++ b2 ++ b1 ++ b0

/-- `zext_32` of one bit at bit `n` of a word (R18). -/
def bitAt (b : Bool) (n : Nat) : Word := (BitVec.ofBool b).setWidth 32 <<< n

/-- `zext_32` of a 4-bit field at bits n+3:n of a word (R18). -/
def fieldAt (f : BitVec 4) (n : Nat) : Word := f.setWidth 32 <<< n

end Sys2Proof.Machine
end

