-- ==== Sys2Proof/Machine/Flags.lean ====
section
/-! DEFINITION. The flags: the STATUS word (R49 to R57), the error codes and details (R211 to R214), and irq (R58). -/

namespace Sys2Proof.Machine

/-- The causes of a LENGTH_ERROR (R212). -/
inductive LengthDetail where
  | msgTooLong
  | kRange
  | emLenMismatch
  | kTooSmall
  | labelRange
  | hashInput
  | inRange
  | maskTooLong
  | outRange
deriving DecidableEq, Repr

/-- ERRDETAIL of a LENGTH_ERROR (R212). -/
def LengthDetail.code : LengthDetail → BitVec 4
  | .msgTooLong => 1
  | .kRange => 2
  | .emLenMismatch => 3
  | .kTooSmall => 4
  | .labelRange => 5
  | .hashInput => 6
  | .inRange => 7
  | .maskTooLong => 8
  | .outRange => 9

/-- Why a command fails at its completion (R210). -/
inductive CmdError where
  /-- LENGTH_ERROR -/
  | length (d : LengthDetail)
  /-- DECRYPTION_ERROR, with no distinguishing payload (R214) -/
  | decryption
deriving DecidableEq, Repr

/-- ERRCODE of a command's error (R211). -/
def CmdError.errCode : CmdError → BitVec 4
  | .length _ => 1
  | .decryption => 2

/-- ERRDETAIL of a command's error (R212, R214). -/
def CmdError.errDetail : CmdError → BitVec 4
  | .length d => d.code
  | .decryption => 0

/-- ERRCODE of an illegal command word, ILLEGAL_COMMAND (R211). -/
def illegalCommand : BitVec 4 := 3

/-- SEQ is BUSY (R31). -/
def State.busy (s : State) : Bool :=
  match s.seq with
  | .idle => false
  | .busy _ => true

/-- STATUS.ERR: 1 exactly when ERRCODE ≠ 0 (R52). -/
def State.err (s : State) : Bool := decide (s.errCode ≠ 0)

/-- The output irq, a level (R58, R224). -/
def State.irq (s : State) : Bool := s.done && s.irqEn

/-- StatusWord() of R89, with the layout of R49; reserved bits are 0 (R56). -/
def State.statusWord (s : State) : Word :=
  bitAt s.busy 0 ||| bitAt s.done 1 ||| bitAt s.err 2 ||| fieldAt s.errCode 8 |||
    fieldAt s.errDetail 16 ||| bitAt s.busyViol 24

/-- CTRL as it reads: IRQ_EN; SOFT_RESET and the reserved bits read 0 (R47, R56). -/
def State.ctrlWord (s : State) : Word := bitAt s.irqEn 0

/-- ERRCODE and ERRDETAIL set together (R54). -/
def State.setOutcome (s : State) (code detail : BitVec 4) : State :=
  { s with errCode := code, errDetail := detail }

/-- STATUS.BUSY_VIOL set by a write the block drops (R55). -/
def State.violate (s : State) : State := { s with busyViol := true }

/-- A write to STATUS: DONE and BUSY_VIOL are W1C, every other bit is ignored (R49). -/
def State.writeStatus (s : State) (v : Word) : State :=
  { s with done := s.done && !v.getLsbD 1, busyViol := s.busyViol && !v.getLsbD 24 }

end Sys2Proof.Machine
end

