-- ==== Sys2Proof/Machine/Memory.lean ====
section
/-! DEFINITION. The three operations over the canonical list of cells that holds the six buffers: read one byte,
read a string, replace a string. DESIGN CHOICE, log entry 12. -/

namespace Sys2Proof.Machine

/-- The byte at an offset; an unlisted byte is 0x00 (R70). -/
def Memory.read : Memory → Nat → Byte
  | [], _ => 0
  | (k, v) :: rest, a => if k = a then v else Memory.read rest a

/-- The `n` bytes from an offset on. -/
def Memory.readBytes (m : Memory) (a n : Nat) : List Byte :=
  (List.range n).map fun i => m.read (a + i)

/-- The cells of a byte string placed at an offset: none for a 0x00. -/
def cellsOf : Nat → List Byte → Memory
  | _, [] => []
  | a, b :: rest => if b = 0 then cellsOf (a + 1) rest else (a, b) :: cellsOf (a + 1) rest

/-- Memory with the string `bs` written at offset `a`: exactly the bytes at `a` to `a + len(bs) - 1` change. -/
def Memory.replace (m : Memory) (a : Nat) (bs : List Byte) : Memory :=
  m.filter (fun c => decide (c.1 < a)) ++ (cellsOf a bs ++
    m.filter (fun c => decide (a + bs.length ≤ c.1)))

/-- The canonical form: offsets strictly rising, and no cell equal to what an unlisted byte reads as. -/
def Memory.wf (m : Memory) : Bool :=
  decide (m.Pairwise fun c d => c.1 < d.1) && m.all fun c => decide (c.2 ≠ 0)

end Sys2Proof.Machine
end

