-- ==== Sys2Proof/Machine/Ops.lean ====
section
/-! DEFINITION. The named operations: registers, buffers, the commit of a command's outcome (R217, R218), acceptance
of a command word (R215), completion (R216) and reset (R240, R241). -/

namespace Sys2Proof.Machine

/-! ### Registers -/

/-- The host-visible registers (R32). -/
inductive RegName where
  | id
  | version
  | paramHlen
  | paramKmax
  | paramLmax
  | paramInmax
  | paramOutmax
  | ctrl
  | cmd
  | status
  | k
  | msgLen
  | labelLen
  | emLen
  | inLen
  | maskLen
  | outLen
deriving DecidableEq, Repr

/-- The offset of a register (R32). -/
def RegName.offset : RegName → Nat
  | .id => 0x000
  | .version => 0x004
  | .paramHlen => 0x008
  | .paramKmax => 0x00C
  | .paramLmax => 0x010
  | .paramInmax => 0x014
  | .paramOutmax => 0x018
  | .ctrl => 0x020
  | .cmd => 0x024
  | .status => 0x028
  | .k => 0x030
  | .msgLen => 0x034
  | .labelLen => 0x038
  | .emLen => 0x03C
  | .inLen => 0x040
  | .maskLen => 0x044
  | .outLen => 0x048

/-- Every register, in the order of R32. -/
def RegName.all : List RegName :=
  [.id, .version, .paramHlen, .paramKmax, .paramLmax, .paramInmax, .paramOutmax, .ctrl, .cmd, .status,
   .k, .msgLen, .labelLen, .emLen, .inLen, .maskLen, .outLen]

/-- The register at an offset of the register page, none where the page is unmapped (R32, R84). -/
def RegName.atOffset (off : Nat) : Option RegName := RegName.all.find? fun r => decide (r.offset = off)

/-- What a register reads as (R33 to R49, R89). -/
def State.readReg (s : State) : RegName → Word
  | .id => 0x4F414550
  | .version => 0x00000001
  | .paramHlen => BitVec.ofNat 32 s.cfg.params.hLen
  | .paramKmax => BitVec.ofNat 32 s.cfg.params.kMax
  | .paramLmax => BitVec.ofNat 32 s.cfg.params.lMax
  | .paramInmax => BitVec.ofNat 32 s.cfg.params.inMax
  | .paramOutmax => BitVec.ofNat 32 s.cfg.params.outMax
  | .ctrl => s.ctrlWord
  | .cmd => 0
  | .status => s.statusWord
  | .k => s.k
  | .msgLen => s.msgLen
  | .labelLen => s.labelLen
  | .emLen => s.emLen
  | .inLen => s.inLen
  | .maskLen => s.maskLen
  | .outLen => s.outLen

/-! ### Buffers -/

/-- The six buffers (R59). -/
inductive Buf where
  | msg
  | label
  | seed
  | em
  | inp
  | out
deriving DecidableEq, Repr

/-- `WB(name)`, the offset of a buffer's window (R83). -/
def Buf.base : Buf → Nat
  | .msg => 0x1000
  | .label => 0x2000
  | .seed => 0x3000
  | .em => 0x4000
  | .inp => 0x5000
  | .out => 0x6000

/-- The capacity C of a buffer (R59). -/
def Buf.cap (p : Params) : Buf → Nat
  | .msg => p.kMax
  | .label => p.lMax
  | .seed => p.hLen
  | .em => p.kMax
  | .inp => p.inMax
  | .out => p.outMax

/-- Every buffer, in the order of R59. -/
def Buf.all : List Buf := [.msg, .label, .seed, .em, .inp, .out]

/-- `B[0:n]` (R20). -/
def State.slice (s : State) (b : Buf) (n : Nat) : List Byte := s.mem.readBytes b.base n

/-- `B[o] <- ...`: a byte string written into a buffer from index `o` on. -/
def State.writeBuf (s : State) (b : Buf) (o : Nat) (bs : List Byte) : State :=
  { s with mem := s.mem.replace (b.base + o) bs }

/-! ### Commit and completion -/

/-- The output pair of a command: its buffer and its length register (R217). -/
inductive OutPair where
  /-- EM_BUF, EM_LEN: ENCODE -/
  | em
  /-- MSG_BUF, MSG_LEN: DECODE -/
  | msg
  /-- OUT_BUF, OUT_LEN: MGF1 and HASH -/
  | out
deriving DecidableEq, Repr

/-- The buffer of an output pair (R217). -/
def OutPair.buf : OutPair → Buf
  | .em => .em
  | .msg => .msg
  | .out => .out

/-- The length register of an output pair, written (R217). -/
def OutPair.setLen : OutPair → Word → State → State
  | .em, v, s => { s with emLen := v }
  | .msg, v, s => { s with msgLen := v }
  | .out, v, s => { s with outLen := v }

/-- The length register of an output pair, as it stands (R217). -/
def OutPair.len : OutPair → State → Word
  | .em, s => s.emLen
  | .msg, s => s.msgLen
  | .out, s => s.outLen

/-- How a command finishes: `finish Ok(result)` or `finish Err(code, detail)` (R20). -/
inductive Finish where
  | ok (result : List Byte)
  | err (e : CmdError)
deriving DecidableEq, Repr

/-- What a length-checked function finishes with: its value, or its LENGTH_ERROR (R131, R135). -/
def Finish.ofExcept : Except LengthDetail (List Byte) → Finish
  | .ok r => .ok r
  | .error d => .err (.length d)

/-- The result a finish puts at the start of the output buffer: none of it on failure (R217, R218). -/
def Finish.result : Finish → List Byte
  | .ok r => r
  | .err _ => []

/-- ERRCODE of a finish (R217, R218). -/
def Finish.errCode : Finish → BitVec 4
  | .ok _ => 0
  | .err e => e.errCode

/-- ERRDETAIL of a finish (R217, R218). -/
def Finish.errDetail : Finish → BitVec 4
  | .ok _ => 0
  | .err e => e.errDetail

/-- The commit of R217 and R218: the output buffer becomes `result ‖ zeros(C − len(result))`, the length register
`len(result)`, the outcome is recorded; on failure the result is empty, so the buffer is all 0x00 and the length 0. -/
def State.commit (s : State) (o : OutPair) (f : Finish) : State :=
  let r := f.result
  o.setLen (BitVec.ofNat 32 r.length)
    ((s.writeBuf o.buf 0 (r ++ zeros (o.buf.cap s.cfg.params - r.length))).setOutcome f.errCode f.errDetail)

/-- Completion (R216): the commit, then SEQ <- IDLE and STATUS.DONE <- 1. The working state W, which would be zeroed,
is not represented (R66, DEDUCED, log entry 8). -/
def State.complete (s : State) (o : OutPair) (f : Finish) : State :=
  { s.commit o f with seq := .idle, done := true }

/-! ### Acceptance -/

/-- AcceptCommand(v) of R215, of a machine that is IDLE. -/
def State.acceptCommand (s : State) (v : Word) : State :=
  let s0 := { s.setOutcome 0 0 with done := false }
  match decodeCmd v with
  | .illegal r => { s0.setOutcome illegalCommand r.detail with done := true }
  | .legal i => { s0 with seq := .busy i }

/-! ### Reset -/

/-- Every piece of the architectural state at its reset value (R70, R240); the instance and the model's own fields stay. -/
def State.resetArch (s : State) : State :=
  { State.resetWith s.cfg with inputs := s.inputs, answer := s.answer, rst := s.rst, draws := s.draws }

/-- SoftReset() of R241. -/
def State.softReset (s : State) : State := s.resetArch

/-- The reset input driven to a level (R240). A change of level, an assertion or a release, leaves the reset state: R240
says so of the release, and of the assertion it is a DESIGN CHOICE (log entry 7). A move to the level that rst already
has, low while low or high while high, is neither; the spec does not speak of it, and nothing happens, a BUSY command
goes on: DESIGN CHOICE (log entry 7). -/
def State.driveRst (s : State) (level : Bool) : State :=
  if level = s.rst then s else { s.resetArch with rst := level }

/-! ### Draws -/

/-- `draw_RNG(n)` (R134): the n bytes of the draw whose number is `draw`. DESIGN CHOICE, log entry 3.
DEDUCED: it never fails (D14, log entry 10), and R132 to R134 stand in for the missing R12 (log entry 18). -/
def drawRng (draw n : Nat) : List Byte := (List.range n).map fun i => Config.freeSeedByte draw i

/-- One more free value has been taken. -/
def State.countDraw (s : State) : State := { s with draws := s.draws + 1 }

end Sys2Proof.Machine
end

