-- ==== Sys2Proof/Machine/Bus.lean ====
section
/-! DEFINITION. The host port (20_memory.md): the address map (R83 to R85), MemRead (R89), MemWrite (R90), one
transaction (R81, R82), and which agent moves next (R95, R216). -/

namespace Sys2Proof.Machine

/-! ### The address map -/

/-- What an offset is (R83, R84). -/
inductive Region where
  /-- a register of the register page (R32) -/
  | reg (r : RegName)
  /-- window offset `o` of a buffer, o < C (R85) -/
  | window (b : Buf) (o : Nat)
  /-- unmapped (R84) -/
  | unmapped
deriving DecidableEq, Repr

/-- The buffer whose 4 KiB window holds an offset, none outside the windows (R83). -/
def Buf.atOffset (off : Nat) : Option Buf :=
  Buf.all.find? fun b => decide (b.base ≤ off) && decide (off < b.base + 0x1000)

/-- The address map of an instance (R83, R84). -/
def locate (p : Params) (off : Nat) : Region :=
  if off < 0x1000 then
    match RegName.atOffset off with
    | some r => .reg r
    | none => .unmapped
  else
    match Buf.atOffset off with
    | some b => if off - b.base < b.cap p then .window b (off - b.base) else .unmapped
    | none => .unmapped

/-- The host may write the buffer: every one but OUT_BUF (R65). -/
def Buf.hostWritable : Buf → Bool
  | .out => false
  | .msg => true
  | .label => true
  | .seed => true
  | .em => true
  | .inp => true

/-- The bus address of an offset (R80). -/
def busAddress (p : Params) (off : BitVec 16) : Nat := p.base + off.toNat

/-- The offset a bus address has inside the block's 64 KiB page, none where it does not reach the port (R80). DESIGN CHOICE, log entry 15. -/
def offsetOf (p : Params) (addr : Nat) : Option (BitVec 16) :=
  if p.base ≤ addr ∧ addr < p.base + 0x10000 then some (BitVec.ofNat 16 (addr - p.base)) else none

/-! ### MemRead -/

/-- Byte `i` of a window as the host sees it: a pad byte reads 0x00 (R85). -/
def State.windowByte (s : State) (b : Buf) (i : Nat) : Byte :=
  if i < b.cap s.cfg.params then s.mem.read (b.base + i) else 0

/-- The word at window offset `o` (R86, R89). -/
def State.windowWord (s : State) (b : Buf) (o : Nat) : Word :=
  wordOfBytes (s.windowByte b o) (s.windowByte b (o + 1)) (s.windowByte b (o + 2)) (s.windowByte b (o + 3))

/-- MemRead(off, 4) of R89: a buffer read while BUSY answers a fresh free value (R99, DESIGN CHOICE, log entry 4);
no read changes the block's state (R93). -/
def State.memRead (s : State) (off : Nat) : State :=
  match locate s.cfg.params off with
  | .reg r => { s with answer := some (.read (s.readReg r)) }
  | .window b o =>
    if s.busy then { s.countDraw with answer := some (.read (Config.freeWord s.draws)) }
    else { s with answer := some (.read (s.windowWord b o)) }
  | .unmapped => { s with answer := some .err }

/-! ### MemWrite -/

/-- A write that is dropped, and sets BUSY_VIOL, while BUSY (R55, R98). -/
def State.unlessBusy (s : State) (s' : State) : State := if s.busy then s.violate else s'

/-- A write of `v` to a register (R90). -/
def State.writeReg (s : State) (r : RegName) (v : Word) : State :=
  match r with
  | .id => s
  | .version => s
  | .paramHlen => s
  | .paramKmax => s
  | .paramLmax => s
  | .paramInmax => s
  | .paramOutmax => s
  | .ctrl => if v.getLsbD 1 then s.softReset else { s with irqEn := v.getLsbD 0 }
  | .cmd => s.unlessBusy (s.acceptCommand v)
  | .status => s.writeStatus v
  | .k => s.unlessBusy { s with k := v }
  | .msgLen => s.unlessBusy { s with msgLen := v }
  | .labelLen => s.unlessBusy { s with labelLen := v }
  | .emLen => s.unlessBusy { s with emLen := v }
  | .inLen => s.unlessBusy { s with inLen := v }
  | .maskLen => s.unlessBusy { s with maskLen := v }
  | .outLen => s

/-- A write of `v` at window offset `o`: the bytes below the capacity are stored, pad bytes are dropped (R85, R90);
OUT_BUF is read-only to the host (R65). -/
def State.writeWindow (s : State) (b : Buf) (o : Nat) (v : Word) : State :=
  if b.hostWritable then s.unlessBusy (s.writeBuf b o ((bytesOfWord v).take (b.cap s.cfg.params - o)))
  else s

/-- MemWrite(off, 4, v) of R90. -/
def State.memWrite (s : State) (off : Nat) (v : Word) : State :=
  match locate s.cfg.params off with
  | .reg r => { s.writeReg r v with answer := some .written }
  | .window b o => { s.writeWindow b o v with answer := some .written }
  | .unmapped => { s with answer := some .err }

/-! ### One transaction -/

/-- Only aligned 32-bit accesses are supported (R82). -/
def Transaction.supported (t : Transaction) : Bool :=
  decide (t.size = .four) && decide (t.off.toNat % 4 = 0)

/-- One transaction, atomically (R81, R92): one that is narrow or misaligned is answered ERR with no effect (R82). -/
def State.serve (s : State) (t : Transaction) : State :=
  if t.supported then
    match t.kind with
    | .read => s.memRead t.off.toNat
    | .write => s.memWrite t.off.toNat t.wdata
  else { s with answer := some .err }

/-- A transaction the port is given: none is served while rst is asserted (R240, DESIGN CHOICE, log entry 7). -/
def State.port (s : State) (t : Transaction) : State :=
  if s.rst then { s with answer := none } else s.serve t

/-! ### Who moves -/

/-- What the next move is: a command runs in a state, or the move is done. -/
inductive Move where
  | run (i : Instr) (s : State)
  | done (s : State)
deriving DecidableEq, Repr

/-- The core's turn: its one step is enabled exactly when SEQ is BUSY (R216), and not while rst is asserted. -/
def State.coreTurn (s : State) : Move :=
  if s.rst then .done s
  else
    match s.seq with
    | .idle => .done s
    | .busy i => .run i s

/-- The next move: the environment's first input, or the core's turn once the environment has none
(R95, R216, R230, R233). DESIGN CHOICE, log entry 5. -/
def State.nextMove (s : State) : Move :=
  match s.inputs with
  | [] => s.coreTurn
  | .transact t :: rest => .done ({ s with inputs := rest }.port t)
  | .core :: rest => { s with inputs := rest }.coreTurn
  | .rst level :: rest => .done ({ s with inputs := rest }.driveRst level)

/-- The inputs with the core's turn first. -/
def coreNext (inputs : List Input) : List Input :=
  match inputs with
  | [] => []
  | i :: rest => .core :: i :: rest

/-- The host's 32-bit WRITE of `v` at an offset (R120 `sw`). An offset that does not fit the 16 bits of R81, of which
the spec does not speak, is reduced modulo 2^16: DESIGN CHOICE, log entry 22. -/
def writeOf (off : Nat) (v : Word) : Transaction := ⟨.write, BitVec.ofNat 16 off, .four, v⟩

/-- The host's 32-bit READ at an offset (R120 `lw`), an offset past 16 bits reduced as in `writeOf`: DESIGN CHOICE,
log entry 22. -/
def readOf (off : Nat) : Transaction := ⟨.read, BitVec.ofNat 16 off, .four, 0⟩

/-- The state in which the very next step runs the command of the word `v`: a legal command has been accepted and the
core is next; an illegal word, which no completion runs, is the port's next CMD write (R215). DESIGN CHOICE, log entry 9. -/
def State.withCommand (s : State) (v : Word) : State :=
  match decodeCmd v with
  | .legal i => { s with seq := .busy i, inputs := coreNext s.inputs, rst := false }
  | .illegal _ =>
    { s with seq := .idle, inputs := .transact (writeOf RegName.cmd.offset v) :: s.inputs, rst := false }

end Sys2Proof.Machine
end

