-- ==== Sys2Proof/Machine/Hash.lean ====
section
/-! DEFINITION. HashFunction (R11, R130, R131): the uninterpreted hash, TOY4 (95_test_vectors.md section 2)
and SHA-1 (PRESUMED: general knowledge, log entry 2). -/

namespace Sys2Proof.Machine

/-! ### TOY4 -/

/-- `1·x_0 + 2·x_1 + ... + n·x_(n-1)`, the first weight being `i`. -/
def weightedSum : Nat → List Byte → Nat
  | _, [] => 0
  | i, b :: rest => i * b.toNat + weightedSum (i + 1) rest

/-- TOY4 (95_test_vectors.md section 2): length, sum, XOR and weighted sum, each modulo 256. -/
def toy4 (x : List Byte) : List Byte :=
  [BitVec.ofNat 8 x.length, BitVec.ofNat 8 (x.map BitVec.toNat).sum, x.foldl (· ^^^ ·) 0,
   BitVec.ofNat 8 (weightedSum 1 x)]

/-! ### SHA-1. PRESUMED: from general knowledge (G1), for the instantiation SHA of R14. Log entry 2. -/

/-- A 32-bit number rotated left. -/
def rotl32 (n x : Nat) : Nat := ((x <<< n) % 2 ^ 32) ||| (x >>> (32 - n))

/-- The message padded to whole 64-byte blocks: 0x80, zeros, the bit length in 8 bytes. -/
def sha1Pad (x : List Byte) : List Byte :=
  x ++ [0x80] ++ zeros ((119 - x.length % 64) % 64) ++
    (be32 (8 * x.length / 2 ^ 32) ++ be32 (8 * x.length))

/-- A byte string as big-endian 32-bit numbers. -/
def sha1Words : List Byte → List Nat
  | a :: b :: c :: d :: rest => bigEndian [a, b, c, d] :: sha1Words rest
  | _ => []

/-- The message schedule: `n` numbers on from the sixteen newest, the newest first. -/
def sha1Schedule : Nat → List Nat → List Nat
  | 0, w => w
  | n + 1, w =>
    sha1Schedule n (rotl32 1 (w.getD 2 0 ^^^ w.getD 7 0 ^^^ w.getD 13 0 ^^^ w.getD 15 0) :: w)

/-- The five chaining numbers. -/
structure Sha1State where
  a : Nat
  b : Nat
  c : Nat
  d : Nat
  e : Nat
deriving DecidableEq, Repr

/-- Round `t` with schedule number `w`. -/
def sha1Round (t w : Nat) (s : Sha1State) : Sha1State :=
  let f : Nat :=
    if t < 20 then (s.b &&& s.c) ||| ((s.b ^^^ 0xFFFFFFFF) &&& s.d)
    else if t < 40 then s.b ^^^ s.c ^^^ s.d
    else if t < 60 then (s.b &&& s.c) ||| (s.b &&& s.d) ||| (s.c &&& s.d)
    else s.b ^^^ s.c ^^^ s.d
  let k : Nat :=
    if t < 20 then 0x5A827999 else if t < 40 then 0x6ED9EBA1
    else if t < 60 then 0x8F1BBCDC else 0xCA62C1D6
  { a := (rotl32 5 s.a + f + s.e + k + w) % 2 ^ 32, b := s.a, c := rotl32 30 s.b, d := s.c, e := s.d }

/-- The rounds over a schedule, `t` the number of the first. -/
def sha1Rounds : Nat → List Nat → Sha1State → Sha1State
  | _, [], s => s
  | t, w :: rest, s => sha1Rounds (t + 1) rest (sha1Round t w s)

/-- One block's compression. -/
def sha1Block (block : List Nat) (s : Sha1State) : Sha1State :=
  let r := sha1Rounds 0 (sha1Schedule 64 block.reverse).reverse s
  { a := (s.a + r.a) % 2 ^ 32, b := (s.b + r.b) % 2 ^ 32, c := (s.c + r.c) % 2 ^ 32,
    d := (s.d + r.d) % 2 ^ 32, e := (s.e + r.e) % 2 ^ 32 }

/-- `n` blocks of sixteen numbers. -/
def sha1Blocks : Nat → List Nat → Sha1State → Sha1State
  | 0, _, s => s
  | n + 1, ws, s => sha1Blocks n (ws.drop 16) (sha1Block (ws.take 16) s)

/-- SHA-1, 20 bytes. -/
def sha1 (x : List Byte) : List Byte :=
  let ws := sha1Words (sha1Pad x)
  let r := sha1Blocks (ws.length / 16) ws
    { a := 0x67452301, b := 0xEFCDAB89, c := 0x98BADCFE, d := 0x10325476, e := 0xC3D2E1F0 }
  be32 r.a ++ be32 r.b ++ be32 r.c ++ be32 r.d ++ be32 r.e

/-! ### HASH -/

/-- `HASH(x)` of an instance (R11). Of an uninterpreted hash nothing is known but its digest length. -/
def hash (p : Params) (x : List Byte) : List Byte :=
  match p.hash with
  | .uninterpreted id => (List.range p.hLen).map fun i => Config.hashByte id x i
  | .toy4 => toy4 x
  | .sha1 => sha1 x

end Sys2Proof.Machine
end

