-- ==== Sys2Proof/Machine/Primitives.lean ====
section
/-! DEFINITION. The functions of 40_primitives.md: the checked hash (R131) and MGF1 (R135). -/

namespace Sys2Proof.Machine

/-- HashChecked(x) of R131. -/
def hashChecked (p : Params) (x : List Byte) : Except LengthDetail (List Byte) :=
  if p.hashMaxIn < x.length then .error .hashInput else .ok (hash p x)

/-- Block `i` of MGF1: `HASH(Z ‖ BE32(i))` (R135). -/
def mgfBlock (p : Params) (z : List Byte) (i : Nat) : List Byte := hash p (z ++ be32 i)

/-- `T[0:l]` of R135: the blocks 0 to ceil(l / H_LEN) − 1 concatenated, and truncated to l bytes. -/
def mgfMask (p : Params) (z : List Byte) (l : Nat) : List Byte :=
  ((List.range (ceilDiv l p.hLen)).flatMap (mgfBlock p z)).take l

/-- MGF1(Z, l) of R135. Inside ENCODE and DECODE its length check cannot fail, and they call `mgfMask` (DEDUCED, log entry 17). -/
def mgf1 (p : Params) (z : List Byte) (l : Nat) : Except LengthDetail (List Byte) :=
  if 2 ^ 32 * p.hLen < l then .error .maskTooLong else .ok (mgfMask p z l)

end Sys2Proof.Machine
end

