-- ==== Sys2Proof/Machine/Operands.lean ====
section
/-! DEFINITION. What a command reads (R116) and the checks that bound it, in each command's order, the first failing
check being the one reported (R220). Lengths are compared over the integers (R19). -/

namespace Sys2Proof.Machine

/-! ### Operands, read at completion (R98, R116) -/

/-- The message M of ENCODE: `MSG_BUF[0:MSG_LEN]` (R60). -/
def State.message (s : State) : List Byte := s.slice .msg s.msgLen.toNat

/-- The label L: `LABEL_BUF[0:LABEL_LEN]` (R61). -/
def State.label (s : State) : List Byte := s.slice .label s.labelLen.toNat

/-- The EM of DECODE: `EM_BUF[0:K]` (R63, R180). -/
def State.emInput (s : State) : List Byte := s.slice .em s.k.toNat

/-- The input string of MGF1 and HASH: `IN_BUF[0:IN_LEN]` (R64). -/
def State.inputString (s : State) : List Byte := s.slice .inp s.inLen.toNat

/-- ENCODE's seed (R163): SEED_BUF[0:H_LEN], or a fresh draw. -/
def State.encodeSeed (s : State) : SeedSrc → List Byte
  | .seedBuf => s.slice .seed s.cfg.params.hLen
  | .fresh => drawRng s.draws s.cfg.params.hLen

/-- A fresh seed is one draw of its completion, so that no two commands share one (R133). DESIGN CHOICE, log entry 3. -/
def State.afterSeed (s : State) : SeedSrc → State
  | .seedBuf => s
  | .fresh => s.countDraw

/-! ### Checks -/

/-- The detail of the first check that fails; a check is (it fails, its detail). -/
def firstFailing : List (Bool × LengthDetail) → Option LengthDetail
  | [] => none
  | (fails, d) :: rest => if fails then some d else firstFailing rest

/-- ENCODE_CHECKS() of R161; the bound of check 2 may be negative (R162). -/
def State.encodeChecks (s : State) : Option LengthDetail :=
  let p := s.cfg.params
  firstFailing
    [(decide (p.kMax < s.k.toNat), .kRange),
     (decide ((s.k.toNat : Int) - 2 * p.hLen - 2 < s.msgLen.toNat), .msgTooLong),
     (decide (p.lMax < s.labelLen.toNat), .labelRange),
     (decide (p.hashMaxIn < s.labelLen.toNat), .hashInput)]

/-- DECODE_CHECKS() of R181. -/
def State.decodeChecks (s : State) : Option LengthDetail :=
  let p := s.cfg.params
  firstFailing
    [(decide (p.kMax < s.k.toNat), .kRange),
     (decide (s.emLen ≠ s.k), .emLenMismatch),
     (decide (s.k.toNat < 2 * p.hLen + 2), .kTooSmall),
     (decide (p.lMax < s.labelLen.toNat), .labelRange),
     (decide (p.hashMaxIn < s.labelLen.toNat), .hashInput)]

/-- The checks of MGF1_CMD() in R140. -/
def State.mgf1Checks (s : State) : Option LengthDetail :=
  let p := s.cfg.params
  firstFailing
    [(decide (p.inMax < s.inLen.toNat), .inRange),
     (decide (2 ^ 32 * p.hLen < s.maskLen.toNat), .maskTooLong),
     (decide (p.outMax < s.maskLen.toNat), .outRange),
     (decide (0 < s.maskLen.toNat) && decide (p.hashMaxIn < s.inLen.toNat + 4), .hashInput)]

/-- The checks of HASH_CMD() in R145. -/
def State.hashChecks (s : State) : Option LengthDetail :=
  let p := s.cfg.params
  firstFailing
    [(decide (p.inMax < s.inLen.toNat), .inRange),
     (decide (p.hashMaxIn < s.inLen.toNat), .hashInput)]

end Sys2Proof.Machine
end

