-- ==== Sys2Proof/Machine/Decoder.lean ====
section
/-! DEFINITION. OAEP_decoder: the DECODE command (42_decoder.md). -/

namespace Sys2Proof.Machine

/-- DB of an EM: DECODE_UNMASK of R184, steps 4 to 6. -/
def unmask (p : Params) (k : Nat) (em : List Byte) : List Byte :=
  let maskedSeed := sliceOf em 1 (1 + p.hLen)
  let maskedDb := sliceOf em (1 + p.hLen) k
  let seed := xorBytes maskedSeed (mgfMask p maskedDb p.hLen)
  xorBytes maskedDb (mgfMask p seed (k - p.hLen - 1))

/-- `labelBad` of R185: lHash' = DB[0:h] differs from HASH(L). -/
def labelBad (p : Params) (db lab : List Byte) : Bool := decide (db.take p.hLen ≠ hash p lab)

/-- The separator scan of R186: the least index j ≥ h with DB[j] ≠ 0x00, counted from the start of DB (C5), or none. -/
def separator (p : Params) (db : List Byte) : Option Nat :=
  ((db.drop p.hLen).findIdx? fun b => decide (b ≠ 0x00)).map (· + p.hLen)

/-- `sepBad` of R186: no non-zero byte, or the first one is not 0x01. -/
def sepBad (p : Params) (db : List Byte) : Bool :=
  match separator p db with
  | none => true
  | some j => decide (db[j]? ≠ some 0x01)

/-- `bad` of R187: the three conditions in the order Y, label, separator, all computed. -/
def structureBad (p : Params) (y : Byte) (db lab : List Byte) : Bool :=
  let yBad := decide (y ≠ 0x00)
  let lBad := labelBad p db lab
  let sBad := sepBad p db
  yBad || lBad || sBad

/-- M of R188: the bytes of DB after the separator. -/
def extractMessage (p : Params) (db : List Byte) : List Byte :=
  match separator p db with
  | none => []
  | some j => db.drop (j + 1)

/-- What DECODE makes of an EM and a label once its length checks pass (R184 to R188). -/
def decodeTransform (p : Params) (k : Nat) (em lab : List Byte) : Finish :=
  let db := unmask p k em
  if structureBad p (em.headD 0x00) db lab then .err .decryption else .ok (extractMessage p db)

/-- DECODE_CMD() of R216: the checks of R181, then R184 to R188. -/
def State.decodeCmd (s : State) : Finish :=
  match s.decodeChecks with
  | some d => .err (.length d)
  | none => decodeTransform s.cfg.params s.k.toNat s.emInput s.label

/-- DECODE (R180 to R192): the completion of an accepted DECODE. -/
def execDecode (s : State) : Host.Outcome State Fault Refusal :=
  .next (s.complete .msg s.decodeCmd)

end Sys2Proof.Machine
end

