-- ==== Sys2Proof/Machine/Encoder.lean ====
section
/-! DEFINITION. OAEP_encoder: the ENCODE command (41_encoder.md). -/

namespace Sys2Proof.Machine

/-- DB = lHash ‖ PS ‖ 0x01 ‖ M (R164 steps 3 to 5). -/
def dataBlock (p : Params) (k : Nat) (msg lab : List Byte) : List Byte :=
  hash p lab ++ zeros (k - 2 * p.hLen - 2 - msg.length) ++ [0x01] ++ msg

/-- EM = 0x00 ‖ maskedSeed ‖ maskedDB of a data block and a seed (R164 steps 6 to 8). -/
def maskBlock (p : Params) (k : Nat) (db seed : List Byte) : List Byte :=
  let maskedDb := xorBytes db (mgfMask p seed (k - p.hLen - 1))
  let maskedSeed := xorBytes seed (mgfMask p maskedDb p.hLen)
  [0x00] ++ maskedSeed ++ maskedDb

/-- ENCODE_TRANSFORM(M, L, seed) of R164. -/
def encodeTransform (p : Params) (k : Nat) (msg lab seed : List Byte) : List Byte :=
  maskBlock p k (dataBlock p k msg lab) seed

/-- ENCODE_CMD(s) of R216: the checks of R161, then the seed of R163 and the transform of R164. -/
def State.encodeCmd (s : State) (src : SeedSrc) : Finish :=
  match s.encodeChecks with
  | some d => .err (.length d)
  | none => .ok (encodeTransform s.cfg.params s.k.toNat s.message s.label (s.encodeSeed src))

/-- ENCODE (R160 to R168): the completion of an accepted ENCODE. -/
def execEncode (src : SeedSrc) (s : State) : Host.Outcome State Fault Refusal :=
  .next ((s.afterSeed src).complete .em (s.encodeCmd src))

end Sys2Proof.Machine
end

