-- ==== Sys2Proof/Machine/Expander.lean ====
section
/-! DEFINITION. MGF1_expander and the hash exposed to the host: the MGF1 and HASH commands (40_primitives.md). -/

namespace Sys2Proof.Machine

/-- MGF1_CMD() of R140; hLen is H_LEN (R138). -/
def State.mgf1Cmd (s : State) : Finish :=
  match s.mgf1Checks with
  | some d => .err (.length d)
  | none => .ofExcept (mgf1 s.cfg.params s.inputString s.maskLen.toNat)

/-- MGF1 (R140): the completion of an accepted MGF1. -/
def execMgf1 (s : State) : Host.Outcome State Fault Refusal :=
  .next (s.complete .out s.mgf1Cmd)

/-- HASH_CMD() of R145. -/
def State.hashCmd (s : State) : Finish :=
  match s.hashChecks with
  | some d => .err (.length d)
  | none => .ofExcept (hashChecked s.cfg.params s.inputString)

/-- HASH (R145): the completion of an accepted HASH. -/
def execHash (s : State) : Host.Outcome State Fault Refusal :=
  .next (s.complete .out s.hashCmd)

end Sys2Proof.Machine
end

