-- ==== Sys2Proof/Machine/Dispatch.lean ====
section
/-! DEFINITION. The meaning of each command: its completion (R216). -/

namespace Sys2Proof.Machine

-- The completion of a command on the state as it stands; that SEQ holds the command is the step's condition (DESIGN CHOICE, log entry 13).
def exec (i : Instr) (s : State) : Host.Outcome State Fault Refusal :=
  match i with
  | .encode src => Sys2Proof.Machine.execEncode src s
  | .decode => Sys2Proof.Machine.execDecode s
  | .mgf1 => Sys2Proof.Machine.execMgf1 s
  | .hash => Sys2Proof.Machine.execHash s

end Sys2Proof.Machine
end

