-- ==== Sys2Proof/Machine/Step.lean ====
section
/-! DEFINITION. One step of the machine: the next move of the environment or of the core. -/

namespace Sys2Proof.Machine

/-- One step (R95, R216): `nextMove` says who moves; where the core moves, the accepted command runs.
No time passes in a step: DEDUCED, log entry 11. -/
def step (s : State) : Host.Outcome State Fault Refusal :=
  match s.nextMove with
  | .run i s' => exec i s'
  | .done s' => .next s'

/-- `s` with the command word `w` of `nbits` bits in the place from which the very next step runs it (DESIGN CHOICE, log entry 9).
A table word that is no 32-bit word leaves `s` as it is. -/
def State.withFetchWord (s : State) (nbits w : Nat) : State :=
  match tableWord nbits w with
  | none => s
  | some v => s.withCommand v

end Sys2Proof.Machine
end

