-- ==== Sys2Proof/Machine/HostAsm.lean ====
section
/-! DEFINITION. The host assembly of 30_encoding.md section 6 (R120, R121): each instruction as bus transactions, and
the bytes that `dump` unpacks. Machine/HostRun.lean runs it on the machine. -/

namespace Sys2Proof.Machine

/-- The host's instructions (R120) and pseudo-instructions (R121). -/
inductive HostOp where
  | swReg (r : RegName) (imm : Word)
  | swWin (b : Buf) (o : Nat) (imm : Word)
  | lwReg (r : RegName)
  | lwWin (b : Buf) (o : Nat)
  | cmdEncode
  | cmdEncodeHs
  | cmdDecode
  | cmdMgf1
  | cmdHash
  | wait
  | ack
  | irqOn
  | irqOff
  | srst
  | load (b : Buf) (bytes : List Byte)
  | dump (b : Buf) (n : Nat)
deriving DecidableEq, Repr

/-- The words of a byte string, bytes past its end taken as 0x00 (R121 `load`). -/
def wordsOfBytes : List Byte → List Word
  | [] => []
  | [a] => [wordOfBytes a 0 0 0]
  | [a, b] => [wordOfBytes a b 0 0]
  | [a, b, c] => [wordOfBytes a b c 0]
  | a :: b :: c :: d :: rest => wordOfBytes a b c d :: wordsOfBytes rest

/-- Writes of the words at 4 bytes' distance, from an offset on; one past 16 bits is `writeOf`'s choice (log entry 22). -/
def storeWords : Nat → List Word → List Transaction
  | _, [] => []
  | off, w :: rest => writeOf off w :: storeWords (off + 4) rest

/-- The bytes that `dump` unpacks from the words it reads, little-endian, its first `n` (R121, R86). -/
def unpackWords (n : Nat) (words : List Word) : List Byte := (words.flatMap bytesOfWord).take n

/-- The expansions of R121. `wait` is a host loop: this is its body, one `lw STATUS`, which `HostOp.run` repeats.
An offset past 16 bits is reduced by `writeOf` and `readOf`: DESIGN CHOICE, log entry 22. -/
def HostOp.expand : HostOp → List Transaction
  | .swReg r v => [writeOf r.offset v]
  | .swWin b o v => [writeOf (b.base + o) v]
  | .lwReg r => [readOf r.offset]
  | .lwWin b o => [readOf (b.base + o)]
  | .cmdEncode => [writeOf RegName.cmd.offset 0x00000001]
  | .cmdEncodeHs => [writeOf RegName.cmd.offset 0x00000101]
  | .cmdDecode => [writeOf RegName.cmd.offset 0x00000002]
  | .cmdMgf1 => [writeOf RegName.cmd.offset 0x00000003]
  | .cmdHash => [writeOf RegName.cmd.offset 0x00000004]
  | .wait => [readOf RegName.status.offset]
  | .ack => [writeOf RegName.status.offset 0x00000002]
  | .irqOn => [writeOf RegName.ctrl.offset 0x00000001]
  | .irqOff => [writeOf RegName.ctrl.offset 0x00000000]
  | .srst => [writeOf RegName.ctrl.offset 0x00000002]
  | .load b bytes => storeWords b.base (wordsOfBytes bytes)
  | .dump b n => (List.range (ceilDiv n 4)).map fun j => readOf (b.base + 4 * j)

end Sys2Proof.Machine
end

