-- ==== Sys2Proof/Machine/HostRun.lean ====
section
/-! DEFINITION. The host running its assembly on the machine (30_encoding.md section 6): it issues transactions, keeps
what its reads return, and loops in `wait` while STATUS.DONE reads 0 (R121). The core may take its turn before any of
the host's transactions (R216); which of those turns it takes is plain data (DESIGN CHOICE, log entry 20). -/

namespace Sys2Proof.Machine

/-- The host and the machine it drives. -/
structure HostState where
  /-- the machine behind the port -/
  machine : State
  /-- for each transaction to come, whether the core gets its turn before it; past the list's end it always does, the
  weak fairness of R233. DESIGN CHOICE, log entries 5 and 20. -/
  turns   : List Bool
  /-- what the host's reads returned, the first read first -/
  reads   : List Word
  /-- the host is in a `wait` loop that does not end (R253) -/
  waiting : Bool
deriving DecidableEq, Repr

/-- Go on from a next state; a stop stays a stop. -/
def onNext {σ τ : Type} (o : Host.Outcome σ Fault Refusal) (f : σ → Host.Outcome τ Fault Refusal) :
    Host.Outcome τ Fault Refusal :=
  match o with
  | .next s => f s
  | .fault r => .fault r
  | .refused r => .refused r

/-- What a transaction returns to the host's program: the rdata of a READ, which is 0 where it is answered ERR (R81). -/
def readResult (t : Transaction) (a : Option Answer) : List Word :=
  match t.kind, a with
  | .read, some (.read w) => [w]
  | .read, some .err => [0]
  | .read, some .written => []
  | .read, none => []
  | .write, _ => []

/-- The moves that one transaction of the host makes: the core's turn, where the schedule gives it, and the transaction. -/
def HostState.movesFor (h : HostState) (t : Transaction) : List Input :=
  if h.turns.headD true then [.core, .transact t] else [.transact t]

/-- The host issues one transaction (R120), before any other move still to come. -/
def HostState.issue (h : HostState) (t : Transaction) : Host.Outcome HostState Fault Refusal :=
  let moves := h.movesFor t
  onNext (Host.Core.run Sys2Proof.core moves.length { h.machine with inputs := moves ++ h.machine.inputs }) fun s =>
    .next { h with machine := s, turns := h.turns.tail, reads := h.reads ++ readResult t s.answer }

/-- The host issues a list of transactions, in order. -/
def HostState.issueAll : List Transaction → HostState → Host.Outcome HostState Fault Refusal
  | [], h => .next h
  | t :: rest, h => onNext (h.issue t) (HostState.issueAll rest)

/-- Bit 1 of the word just read is 1: STATUS.DONE, after a poll (R51, R121). -/
def HostState.sawDone (h : HostState) : Bool :=
  match h.machine.answer with
  | some (.read w) => w.getLsbD 1
  | some .written => false
  | some .err => false
  | none => false

/-- The loop of `wait`: `lw STATUS`, repeated while bit 1 of the result is 0 (R121), along the turns to come. At the
end of the list the core has had its turn, so a 0 there is a 0 for good, and the loop does not end (R253). -/
def waitLoop : List Bool → HostState → Host.Outcome HostState Fault Refusal
  | [], h => onNext (HostState.issueAll HostOp.wait.expand h) fun h' =>
      .next (if h'.sawDone then h' else { h' with waiting := true })
  | _ :: rest, h => onNext (HostState.issueAll HostOp.wait.expand h) fun h' =>
      if h'.sawDone then .next h' else waitLoop rest h'

/-- The host runs one instruction or pseudo-instruction: its expansion, and for `wait` the loop around it (R120, R121).
A host that waits for ever runs nothing more. -/
def HostOp.run (op : HostOp) (h : HostState) : Host.Outcome HostState Fault Refusal :=
  if h.waiting then .next h
  else if op = .wait then waitLoop h.turns h
  else HostState.issueAll op.expand h

/-- The host runs a program, in order. -/
def runProgram : List HostOp → HostState → Host.Outcome HostState Fault Refusal
  | [], h => .next h
  | op :: rest, h => onNext (op.run h) (runProgram rest)

end Sys2Proof.Machine
end

