-- ==== Sys2Proof/Safety.lean ====
section
/-! DEFINITION. What every run of the block keeps, as one invariant, and the terms the statements use. -/

namespace Sys2Proof.Machine

/-- ERRCODE and ERRDETAIL are a pair the block produces (R211 to R214, V4): NONE and DECRYPTION_ERROR with detail 0,
LENGTH_ERROR with details 1 to 9, ILLEGAL_COMMAND with details 1 and 2. -/
def legalOutcome (code detail : BitVec 4) : Bool :=
  (decide (code = 0) && decide (detail = 0)) ||
  (decide (code = 1) && decide (1 ≤ detail.toNat) && decide (detail.toNat ≤ 9)) ||
  (decide (code = 2) && decide (detail = 0)) ||
  (decide (code = 3) && (decide (detail = 1) || decide (detail = 2)))

/-- An offset holds a byte of some buffer, within its capacity (R59, R85). -/
def inBuffers (p : Params) (a : Nat) : Prop := ∃ b : Buf, b.base ≤ a ∧ a < b.base + b.cap p

/-- What holds of the block after reset and after every step. -/
structure Inv (s : State) : Prop where
  /-- the canonical form of memory -/
  memWf : s.mem.wf = true
  /-- only buffer bytes within a capacity are stored (R85, R100) -/
  memInBuffers : ∀ c ∈ s.mem, inBuffers s.cfg.params c.1
  /-- reserved codes and details are never produced (V4) -/
  outcomeLegal : legalOutcome s.errCode s.errDetail = true
  /-- while BUSY no outcome is recorded: acceptance cleared it (R215) -/
  busyClean : ∀ i, s.seq = .busy i → s.done = false ∧ s.errCode = 0 ∧ s.errDetail = 0
  /-- OUT_LEN is the length of a result that fits OUT_BUF (R46, R65) -/
  outLenFits : s.outLen.toNat ≤ s.cfg.params.outMax
  /-- the bytes of OUT_BUF from OUT_LEN on are 0x00 (R65) -/
  outTail : ∀ i, s.outLen.toNat ≤ i → i < s.cfg.params.outMax → s.mem.read (Buf.out.base + i) = 0
  /-- while rst is asserted the architectural state is the reset state (R240, DESIGN CHOICE, log entry 7) -/
  rstHeld : s.rst = true → s.resetArch = s

/-- A transaction that is a soft reset: a 32-bit write to CTRL with bit 1 set (R241). -/
def isSoftReset (t : Transaction) : Bool :=
  t.supported && decide (t.kind = .write) && decide (t.off.toNat = RegName.ctrl.offset) &&
    t.wdata.getLsbD 1

end Sys2Proof.Machine
end

