-- ==== Sys2Proof/Certificates/Slice0/Obligations.lean ====
section
/-! DEFINITION. The statements for the provers, from the numbered rules of spec/.
Where a statement speaks of a free value (a seed draw, a word read while BUSY, a digest), it holds whatever the value is. -/

open Sys2Proof Sys2Proof.Machine

/-! ### Command words (30_encoding.md) -/

/-- R115: the legal command words are exactly five. -/
def Obligations.LegalWordsAreExactlyFive : Prop :=
  ∀ (v : Word) (i : Instr), decodeCmd v = .legal i ↔
    (v = 0x00000001 ∧ i = .encode .fresh) ∨ (v = 0x00000101 ∧ i = .encode .seedBuf) ∨
    (v = 0x00000002 ∧ i = .decode) ∨ (v = 0x00000003 ∧ i = .mgf1) ∨ (v = 0x00000004 ∧ i = .hash)

/-- R114: DecodeCmd in the spec's own form, with the mask of allowed bits; BAD_OPCODE is tested first. -/
def Obligations.DecodeTestsOpcodeThenReservedBits : Prop :=
  ∀ v : Word, decodeCmd v =
    if v.extractLsb' 0 4 ≠ 0x1 ∧ v.extractLsb' 0 4 ≠ 0x2 ∧ v.extractLsb' 0 4 ≠ 0x3 ∧
        v.extractLsb' 0 4 ≠ 0x4 then .illegal .badOpcode
    else if v &&& ~~~(0x0000000F ||| (if v.extractLsb' 0 4 = 0x1 then 0x00000100 else 0)) ≠ 0 then
      .illegal .reservedBits
    else if v.extractLsb' 0 4 = 0x1 then
      .legal (.encode (if v.getLsbD 8 then .seedBuf else .fresh))
    else if v.extractLsb' 0 4 = 0x2 then .legal .decode
    else if v.extractLsb' 0 4 = 0x3 then .legal .mgf1
    else .legal .hash

/-- Decode and encode agree, both ways: no bit of a command word is dropped (R110 to R113). -/
def Obligations.DecodeEncodeRoundTrip : Prop :=
  (∀ i : Instr, decodeCmd (encode i) = .legal i) ∧
  (∀ (v : Word) (i : Instr), decodeCmd v = .legal i → v = encode i)

/-- A word matches a row of spec/opcode_table.json exactly when it decodes to a command of that row. -/
def Obligations.OpcodeTableRowsDecide : Prop :=
  ∀ (v : Word) (i : Instr), i.row.matchesWord v = true ↔ ∃ j, decodeCmd v = .legal j ∧ j.row = i.row

/-- Words written out from R110 to R113 and 95_test_vectors.md section 7.1 decode to what they stand for. -/
def Obligations.WrittenOutWordsDecode : Prop :=
  decodeCmd 0b00000000000000000000000000000001 = .legal (.encode .fresh) ∧
  decodeCmd 0b00000000000000000000000100000001 = .legal (.encode .seedBuf) ∧
  decodeCmd 0b00000000000000000000000000000010 = .legal .decode ∧
  decodeCmd 0b00000000000000000000000000000011 = .legal .mgf1 ∧
  decodeCmd 0b00000000000000000000000000000100 = .legal .hash ∧
  decodeCmd 0x00000000 = .illegal .badOpcode ∧
  decodeCmd 0xFFFFFFFF = .illegal .badOpcode ∧
  decodeCmd 0x00000102 = .illegal .reservedBits ∧
  decodeCmd 0x00000011 = .illegal .reservedBits ∧
  decodeCmd 0x80000001 = .illegal .reservedBits

/-! ### The step, acceptance and completion (60_exceptions.md section 2) -/

/-- A step of a BUSY machine whose core's turn is due is the completion of the accepted command; around it, the step
takes the turn off the environment's moves (R216; the environment's moves are the model's, log entry 5). -/
def Obligations.StepRunsTheAcceptedCommand : Prop :=
  ∀ (s : State) (i : Instr), s.seq = .busy i → s.rst = false →
    (s.inputs = [] → step s = exec i s) ∧
    (∀ rest, s.inputs = .core :: rest → step s = exec i { s with inputs := rest })

/-- A step whose next move is a transaction serves it, off the environment's moves, while rst is low (R95; log entries 5
and 7). -/
def Obligations.StepServesTheNextTransaction : Prop :=
  ∀ (s : State) (t : Transaction) (rest : List Input), s.inputs = .transact t :: rest → s.rst = false →
    step s = .next ({ s with inputs := rest }.serve t)

/-- The model's own (log entry 9): a legal command word put in place is what the very next step runs. -/
def Obligations.PlacedCommandRunsNext : Prop :=
  ∀ (s : State) (v : Word) (i : Instr), decodeCmd v = .legal i →
    decodeTableWord 32 v.toNat = some i ∧
    step (s.withFetchWord 32 v.toNat) = exec i { s with seq := .busy i, rst := false }

/-- R215: a write to CMD is the acceptance of its word when IDLE, and is dropped with BUSY_VIOL when BUSY. -/
def Obligations.CommandWordIsAccepted : Prop :=
  ∀ (s : State) (v : Word),
    (s.seq = .idle → ∀ i, decodeCmd v = .legal i →
      s.serve ⟨.write, 0x024, .four, v⟩ =
        { s with done := false, errCode := 0, errDetail := 0, seq := .busy i, answer := some .written }) ∧
    (s.seq = .idle → ∀ r, decodeCmd v = .illegal r →
      s.serve ⟨.write, 0x024, .four, v⟩ =
        { s with done := true, errCode := 3, errDetail := r.detail, answer := some .written }) ∧
    (s.seq ≠ .idle →
      s.serve ⟨.write, 0x024, .four, v⟩ = { s with busyViol := true, answer := some .written })

/-- R117, R213: an illegal word ends at once with ILLEGAL_COMMAND, detail 1 for a bad OP and 2 for reserved bits, and
changes no register or buffer. -/
def Obligations.IllegalWordEndsAtOnce : Prop :=
  ∀ (s : State) (v : Word), s.seq = .idle → v ≠ 0x00000001 → v ≠ 0x00000101 → v ≠ 0x00000002 →
    v ≠ 0x00000003 → v ≠ 0x00000004 →
    s.serve ⟨.write, 0x024, .four, v⟩ =
      { s with
        done := true, errCode := 3, answer := some .written
        errDetail := if v.toNat % 16 = 0 ∨ 5 ≤ v.toNat % 16 then 1 else 2 }

/-- R217: the commit of a success, on an output pair. -/
def Obligations.CommitOfSuccess : Prop :=
  ∀ (s : State) (o : OutPair) (r : List Byte), r.length ≤ o.buf.cap s.cfg.params →
    let t := s.commit o (.ok r)
    t.slice o.buf r.length = r ∧
    (∀ j, r.length ≤ j → j < o.buf.cap s.cfg.params → t.mem.read (o.buf.base + j) = 0) ∧
    (∀ a, a < o.buf.base ∨ o.buf.base + o.buf.cap s.cfg.params ≤ a → t.mem.read a = s.mem.read a) ∧
    (o.len t).toNat = r.length ∧ t.errCode = 0 ∧ t.errDetail = 0 ∧
    t = o.setLen (o.len t) { s with mem := t.mem, errCode := 0, errDetail := 0 }

/-- R218: the commit of a failure erases the output pair and records the code and the detail. -/
def Obligations.CommitOfFailure : Prop :=
  ∀ (s : State) (o : OutPair) (e : CmdError),
    let t := s.commit o (.err e)
    (∀ j, j < o.buf.cap s.cfg.params → t.mem.read (o.buf.base + j) = 0) ∧
    (∀ a, a < o.buf.base ∨ o.buf.base + o.buf.cap s.cfg.params ≤ a → t.mem.read a = s.mem.read a) ∧
    t = o.setLen 0 { s with mem := t.mem, errCode := e.errCode, errDetail := e.errDetail }

/-- R116, R216: the frame of every command. A completion returns to IDLE with DONE = 1 and changes no register but its
own length register and no byte outside its own output buffer; of the model's own fields only the count of draws, and
only for a fresh seed (log entry 3). -/
def Obligations.CompletionTouchesOnlyItsOutputPair : Prop :=
  ∀ (i : Instr) (s t : State), exec i s = .next t →
    t.seq = .idle ∧ t.done = true ∧ t.cfg = s.cfg ∧ t.irqEn = s.irqEn ∧ t.busyViol = s.busyViol ∧
    t.k = s.k ∧ t.labelLen = s.labelLen ∧ t.inLen = s.inLen ∧ t.maskLen = s.maskLen ∧
    t.inputs = s.inputs ∧ t.answer = s.answer ∧ t.rst = s.rst ∧
    (i ≠ .encode .fresh → t.draws = s.draws) ∧
    (match i with
      | .encode _ => t.msgLen = s.msgLen ∧ t.outLen = s.outLen ∧
          ∀ a, a < 0x4000 ∨ 0x4000 + s.cfg.params.kMax ≤ a → t.mem.read a = s.mem.read a
      | .decode => t.emLen = s.emLen ∧ t.outLen = s.outLen ∧
          ∀ a, a < 0x1000 ∨ 0x1000 + s.cfg.params.kMax ≤ a → t.mem.read a = s.mem.read a
      | .mgf1 => t.emLen = s.emLen ∧ t.msgLen = s.msgLen ∧
          ∀ a, a < 0x6000 ∨ 0x6000 + s.cfg.params.outMax ≤ a → t.mem.read a = s.mem.read a
      | .hash => t.emLen = s.emLen ∧ t.msgLen = s.msgLen ∧
          ∀ a, a < 0x6000 ∨ 0x6000 + s.cfg.params.outMax ≤ a → t.mem.read a = s.mem.read a)

/-! ### HASH and MGF1 (40_primitives.md) -/

/-- R145, success: HASH completes with the digest of IN_BUF[0:IN_LEN] in OUT_BUF, zeros after it, OUT_LEN = H_LEN. -/
def Obligations.HashWritesTheDigest : Prop :=
  ∀ s : State, s.inLen.toNat ≤ s.cfg.params.inMax →
    ∃ t, exec .hash s = .next t ∧ t.seq = .idle ∧ t.done = true ∧ t.errCode = 0 ∧ t.errDetail = 0 ∧
      t.outLen.toNat = s.cfg.params.hLen ∧
      t.slice .out s.cfg.params.hLen = hash s.cfg.params (s.slice .inp s.inLen.toNat) ∧
      ∀ j, s.cfg.params.hLen ≤ j → j < s.cfg.params.outMax → t.mem.read (0x6000 + j) = 0

/-- R145, R212: HASH fails exactly when IN_LEN > IN_MAX, with LENGTH_ERROR IN_RANGE (7), OUT_BUF all 0x00, OUT_LEN 0. -/
def Obligations.HashFailsOnlyInRange : Prop :=
  ∀ s : State, ∃ t, exec .hash s = .next t ∧
    t.errCode = (if s.cfg.params.inMax < s.inLen.toNat then 1 else 0) ∧
    t.errDetail = (if s.cfg.params.inMax < s.inLen.toNat then 7 else 0) ∧
    (s.cfg.params.inMax < s.inLen.toNat →
      t.outLen = 0 ∧ ∀ j, j < s.cfg.params.outMax → t.mem.read (0x6000 + j) = 0)

/-- R135: MGF1(Z, l) is the concatenation of the blocks HASH(Z ‖ BE32(i)), i from 0 to ceil(l / H_LEN) − 1, truncated
to l bytes, and fails with MASK_TOO_LONG exactly when l > 2^32·H_LEN. -/
def Obligations.MaskIsTruncatedHashBlocks : Prop :=
  ∀ (c : Cfg) (z : List Byte) (l n : Nat), l ≤ n * c.params.hLen → (∀ m, l ≤ m * c.params.hLen → n ≤ m) →
    mgf1 c.params z l =
      if 2 ^ 32 * c.params.hLen < l then .error .maskTooLong
      else .ok (((List.range n).flatMap fun i =>
        hash c.params (z ++ [BitVec.ofNat 8 (i / 2 ^ 24), BitVec.ofNat 8 (i / 2 ^ 16),
          BitVec.ofNat 8 (i / 2 ^ 8), BitVec.ofNat 8 i])).take l)

/-- R136: exact length, whole blocks, prefix, and the empty mask. (Determinism: MGF1 is a function.) -/
def Obligations.MaskLengthBlocksPrefix : Prop :=
  ∀ (c : Cfg) (z : List Byte) (l : Nat), l ≤ 2 ^ 32 * c.params.hLen →
    ∃ m, mgf1 c.params z l = .ok m ∧ m.length = l ∧
      (∀ q, l = q * c.params.hLen →
        m = (List.range q).flatMap fun i => hash c.params (z ++ be32 i)) ∧
      (∀ l' ≤ l, mgf1 c.params z l' = .ok (m.take l')) ∧
      (l = 0 → m = [])

/-- R140, success: MGF1 completes with the mask of MASK_LEN bytes of the seed IN_BUF[0:IN_LEN] in OUT_BUF, zeros after
it, OUT_LEN = MASK_LEN. -/
def Obligations.Mgf1WritesTheMask : Prop :=
  ∀ s : State, s.inLen.toNat ≤ s.cfg.params.inMax → s.maskLen.toNat ≤ s.cfg.params.outMax →
    ∃ t m, exec .mgf1 s = .next t ∧ t.seq = .idle ∧ t.done = true ∧ t.errCode = 0 ∧ t.errDetail = 0 ∧
      mgf1 s.cfg.params (s.slice .inp s.inLen.toNat) s.maskLen.toNat = .ok m ∧
      t.outLen = s.maskLen ∧ t.slice .out s.maskLen.toNat = m ∧
      ∀ j, s.maskLen.toNat ≤ j → j < s.cfg.params.outMax → t.mem.read (0x6000 + j) = 0

/-- R140, R212, R220: MGF1's first failing check is reported: IN_RANGE (7), then OUT_RANGE (9); no other outcome exists. -/
def Obligations.Mgf1FailsInOrder : Prop :=
  ∀ s : State, ∃ t, exec .mgf1 s = .next t ∧
    (t.errCode, t.errDetail) =
      (if s.cfg.params.inMax < s.inLen.toNat then ((1 : BitVec 4), (7 : BitVec 4))
       else if s.cfg.params.outMax < s.maskLen.toNat then (1, 9)
       else (0, 0)) ∧
    (s.cfg.params.inMax < s.inLen.toNat ∨ s.cfg.params.outMax < s.maskLen.toNat →
      t.outLen = 0 ∧ ∀ j, j < s.cfg.params.outMax → t.mem.read (0x6000 + j) = 0)

/-! ### ENCODE (41_encoder.md) -/

/-- R160, R163 to R165, success: the EM of the transform in EM_BUF, zeros after it, EM_LEN = K; for the seed of SEED_BUF
and for every draw (a free value, log entry 3). -/
def Obligations.EncodeWritesTheEncodedMessage : Prop :=
  ∀ (s : State) (src : SeedSrc),
    s.k.toNat ≤ s.cfg.params.kMax →
    s.msgLen.toNat + 2 * s.cfg.params.hLen + 2 ≤ s.k.toNat →
    s.labelLen.toNat ≤ s.cfg.params.lMax →
    let h := s.cfg.params.hLen
    let k := s.k.toNat
    let seed := match src with
      | .seedBuf => s.slice .seed h
      | .fresh => (List.range h).map fun i => Config.freeSeedByte s.draws i
    let db := hash s.cfg.params (s.slice .label s.labelLen.toNat) ++
      List.replicate (k - 2 * h - 2 - s.msgLen.toNat) 0x00 ++ [0x01] ++ s.slice .msg s.msgLen.toNat
    let maskedDb := List.zipWith (· ^^^ ·) db (mgfMask s.cfg.params seed (k - h - 1))
    let maskedSeed := List.zipWith (· ^^^ ·) seed (mgfMask s.cfg.params maskedDb h)
    ∃ t, exec (.encode src) s = .next t ∧ t.seq = .idle ∧ t.done = true ∧ t.errCode = 0 ∧
      t.errDetail = 0 ∧ t.emLen = s.k ∧ t.slice .em k = [0x00] ++ maskedSeed ++ maskedDb ∧
      ∀ j, k ≤ j → j < s.cfg.params.kMax → t.mem.read (0x4000 + j) = 0

/-- R161, R162, R166, R220: ENCODE's first failing check is reported: K_RANGE (2), MSG_TOO_LONG (1) against a bound over
the integers, LABEL_RANGE (5); no other outcome exists. -/
def Obligations.EncodeFailsInOrder : Prop :=
  ∀ (s : State) (src : SeedSrc), ∃ t, exec (.encode src) s = .next t ∧
    (t.errCode, t.errDetail) =
      (if s.cfg.params.kMax < s.k.toNat then ((1 : BitVec 4), (2 : BitVec 4))
       else if (s.k.toNat : Int) - 2 * (s.cfg.params.hLen : Int) - 2 < (s.msgLen.toNat : Int) then (1, 1)
       else if s.cfg.params.lMax < s.labelLen.toNat then (1, 5)
       else (0, 0)) ∧
    (t.errCode = 1 → t.emLen = 0 ∧ ∀ j, j < s.cfg.params.kMax → t.mem.read (0x4000 + j) = 0)

/-- R167: len(DB) = k − h − 1, len(EM) = k, EM[0] = 0x00, and where maskedSeed and maskedDB stand. -/
def Obligations.EncodedMessageShape : Prop :=
  ∀ (c : Cfg) (k : Nat) (msg lab seed : List Byte),
    msg.length + 2 * c.params.hLen + 2 ≤ k → seed.length = c.params.hLen →
    (dataBlock c.params k msg lab).length = k - c.params.hLen - 1 ∧
    (encodeTransform c.params k msg lab seed).length = k ∧
    (encodeTransform c.params k msg lab seed)[0]? = some 0x00 ∧
    xorBytes (sliceOf (encodeTransform c.params k msg lab seed) (1 + c.params.hLen) k)
      (mgfMask c.params seed (k - c.params.hLen - 1)) = dataBlock c.params k msg lab ∧
    xorBytes (sliceOf (encodeTransform c.params k msg lab seed) 1 (1 + c.params.hLen))
      (mgfMask c.params
        (sliceOf (encodeTransform c.params k msg lab seed) (1 + c.params.hLen) k) c.params.hLen) = seed

/-- R22: an EM of k bytes whose first byte is 0x00 is, as a big-endian integer, below every modulus of k bytes (R21). -/
def Obligations.LeadingZeroKeepsBelowModulus : Prop :=
  ∀ (n : Nat) (em : List Byte), 1 ≤ n → em.length = modulusBytes n → em[0]? = some 0x00 →
    2 ^ (8 * (modulusBytes n - 1)) ≤ n ∧ bigEndian em < 2 ^ (8 * (modulusBytes n - 1)) ∧ bigEndian em < n

/-- R168: with SEED_SRC = 1 the outcome depends on nothing but K, the lengths and the bytes the rule reads. -/
def Obligations.EncodeReadsOnlyItsOperands : Prop :=
  ∀ s s' : State, s'.cfg = s.cfg → s'.k = s.k → s'.msgLen = s.msgLen → s'.labelLen = s.labelLen →
    s'.slice .msg s.msgLen.toNat = s.slice .msg s.msgLen.toNat →
    s'.slice .label s.labelLen.toNat = s.slice .label s.labelLen.toNat →
    s'.slice .seed s.cfg.params.hLen = s.slice .seed s.cfg.params.hLen →
    ∃ t t', exec (.encode .seedBuf) s = .next t ∧ exec (.encode .seedBuf) s' = .next t' ∧
      t'.errCode = t.errCode ∧ t'.errDetail = t.errDetail ∧ t'.emLen = t.emLen ∧
      ∀ j, j < s.cfg.params.kMax → t'.mem.read (0x4000 + j) = t.mem.read (0x4000 + j)

/-- R133 (the model's draws, log entries 3 and 4): no step takes the count of draws back, every ENCODE with a fresh seed
and every buffer read while BUSY counts one, so no two use the same free value. -/
def Obligations.DrawsAreNeverReused : Prop :=
  (∀ s t : State, step s = .next t → s.draws ≤ t.draws) ∧
  (∀ s t : State, exec (.encode .fresh) s = .next t → t.draws = s.draws + 1) ∧
  (∀ (s : State) (b : Buf) (o : Nat), s.seq ≠ .idle → o < b.cap s.cfg.params → o % 4 = 0 →
    (s.serve (readOf (b.base + o))).draws = s.draws + 1)

/-! ### DECODE (42_decoder.md) -/

/-- R184 to R189, success: when the length checks pass and the EM is well formed (leading zero byte, label hash, first
non-zero byte of DB[h:] a 0x01 at index j), the bytes after it are the message in MSG_BUF, zeros after it. -/
def Obligations.DecodeRecoversTheMessage : Prop :=
  ∀ (s : State) (j : Nat),
    s.k.toNat ≤ s.cfg.params.kMax → s.emLen = s.k → 2 * s.cfg.params.hLen + 2 ≤ s.k.toNat →
    s.labelLen.toNat ≤ s.cfg.params.lMax →
    let h := s.cfg.params.hLen
    let k := s.k.toNat
    let em := s.slice .em k
    let maskedSeed := (em.take (1 + h)).drop 1
    let maskedDb := em.drop (1 + h)
    let seed := List.zipWith (· ^^^ ·) maskedSeed (mgfMask s.cfg.params maskedDb h)
    let db := List.zipWith (· ^^^ ·) maskedDb (mgfMask s.cfg.params seed (k - h - 1))
    em[0]? = some 0x00 →
    db.take h = hash s.cfg.params (s.slice .label s.labelLen.toNat) →
    h ≤ j → db[j]? = some 0x01 → (∀ i, h ≤ i → i < j → db[i]? = some 0x00) →
    ∃ t, exec .decode s = .next t ∧ t.seq = .idle ∧ t.done = true ∧ t.errCode = 0 ∧ t.errDetail = 0 ∧
      t.msgLen.toNat = k - h - 2 - j ∧ t.slice .msg (k - h - 2 - j) = db.drop (j + 1) ∧
      ∀ i, k - h - 2 - j ≤ i → i < s.cfg.params.kMax → t.mem.read (0x1000 + i) = 0

/-- R185 to R187, R189: when the length checks pass and any of the three conditions fails, one DECRYPTION_ERROR with
detail 0, MSG_BUF all 0x00, MSG_LEN 0, and no other register, flag or byte of memory changed; the STATUS word is
0x00000206 when BUSY_VIOL is 0. -/
def Obligations.DecodeFailsUniformly : Prop :=
  ∀ s : State,
    s.k.toNat ≤ s.cfg.params.kMax → s.emLen = s.k → 2 * s.cfg.params.hLen + 2 ≤ s.k.toNat →
    s.labelLen.toNat ≤ s.cfg.params.lMax →
    let h := s.cfg.params.hLen
    let k := s.k.toNat
    let em := s.slice .em k
    let maskedSeed := (em.take (1 + h)).drop 1
    let maskedDb := em.drop (1 + h)
    let seed := List.zipWith (· ^^^ ·) maskedSeed (mgfMask s.cfg.params maskedDb h)
    let db := List.zipWith (· ^^^ ·) maskedDb (mgfMask s.cfg.params seed (k - h - 1))
    (em[0]? ≠ some 0x00 ∨
      db.take h ≠ hash s.cfg.params (s.slice .label s.labelLen.toNat) ∨
      ¬ ∃ j, h ≤ j ∧ db[j]? = some 0x01 ∧ ∀ i, h ≤ i → i < j → db[i]? = some 0x00) →
    ∃ t, exec .decode s = .next t ∧
      t = { s with
            mem := t.mem, msgLen := 0, errCode := 2, errDetail := 0, done := true, seq := .idle } ∧
      (s.busyViol = false → t.statusWord = 0x00000206) ∧
      (∀ j, j < s.cfg.params.kMax → t.mem.read (0x1000 + j) = 0) ∧
      ∀ a, a < 0x1000 ∨ 0x1000 + s.cfg.params.kMax ≤ a → t.mem.read a = s.mem.read a

/-- R191: two EMs that both fail the structural checks, whichever conditions they fail, end in the same state but for
EM_BUF itself. -/
def Obligations.DecodeFailuresAreIndistinguishable : Prop :=
  ∀ (s : State) (m : Memory),
    (∀ a, a < 0x4000 ∨ 0x4000 + s.cfg.params.kMax ≤ a → Memory.read m a = s.mem.read a) →
    ∀ t t', exec .decode s = .next t → exec .decode { s with mem := m } = .next t' →
      t.errCode = 2 → t'.errCode = 2 →
      t' = { t with mem := t'.mem } ∧
      ∀ a, a < 0x4000 ∨ 0x4000 + s.cfg.params.kMax ≤ a → t'.mem.read a = t.mem.read a

/-- R181, R190, R220: DECODE's first failing length check is reported, before the EM is looked at: K_RANGE (2),
EM_LEN_MISMATCH (3), K_TOO_SMALL (4), LABEL_RANGE (5). -/
def Obligations.DecodeLengthChecksInOrder : Prop :=
  ∀ s : State, ∃ t, exec .decode s = .next t ∧
    (s.cfg.params.kMax < s.k.toNat → t.errCode = 1 ∧ t.errDetail = 2) ∧
    (s.k.toNat ≤ s.cfg.params.kMax → s.emLen ≠ s.k → t.errCode = 1 ∧ t.errDetail = 3) ∧
    (s.k.toNat ≤ s.cfg.params.kMax → s.emLen = s.k → s.k.toNat < 2 * s.cfg.params.hLen + 2 →
      t.errCode = 1 ∧ t.errDetail = 4) ∧
    (s.k.toNat ≤ s.cfg.params.kMax → s.emLen = s.k → 2 * s.cfg.params.hLen + 2 ≤ s.k.toNat →
      s.cfg.params.lMax < s.labelLen.toNat → t.errCode = 1 ∧ t.errDetail = 5) ∧
    (s.k.toNat ≤ s.cfg.params.kMax → s.emLen = s.k → 2 * s.cfg.params.hLen + 2 ≤ s.k.toNat →
      s.labelLen.toNat ≤ s.cfg.params.lMax →
      (t.errCode = 0 ∨ t.errCode = 2) ∧ t.errDetail = 0) ∧
    (t.errCode ≠ 0 → t.msgLen = 0 ∧ ∀ j, j < s.cfg.params.kMax → t.mem.read (0x1000 + j) = 0)

/-- R193: DECODE of the EM that ENCODE's transform makes gives the message back, for every well-formed instance, modulus
length, label, seed and message. -/
def Obligations.DecodeInvertsEncode : Prop :=
  ∀ (s : State) (msg lab seed : List Byte),
    2 * s.cfg.params.hLen + 2 ≤ s.k.toNat → s.k.toNat ≤ s.cfg.params.kMax →
    lab.length ≤ s.cfg.params.lMax → seed.length = s.cfg.params.hLen →
    msg.length + 2 * s.cfg.params.hLen + 2 ≤ s.k.toNat →
    s.slice .em s.k.toNat = encodeTransform s.cfg.params s.k.toNat msg lab seed →
    s.emLen = s.k → s.labelLen.toNat = lab.length → s.slice .label lab.length = lab →
    ∃ t, exec .decode s = .next t ∧ t.errCode = 0 ∧ t.msgLen.toNat = msg.length ∧
      t.slice .msg msg.length = msg

/-- R193, R250 at the machine's level: an ENCODE that succeeds, then DECODE with the same registers, gives
MSG_BUF[0:MSG_LEN] and MSG_LEN back, for the seed of SEED_BUF and for every draw. -/
def Obligations.EncodeThenDecodeReturnsTheMessage : Prop :=
  ∀ (s : State) (src : SeedSrc),
    s.k.toNat ≤ s.cfg.params.kMax →
    s.msgLen.toNat + 2 * s.cfg.params.hLen + 2 ≤ s.k.toNat →
    s.labelLen.toNat ≤ s.cfg.params.lMax →
    ∃ t u, exec (.encode src) s = .next t ∧ exec .decode t = .next u ∧
      u.errCode = 0 ∧ u.msgLen = s.msgLen ∧
      u.slice .msg s.msgLen.toNat = s.slice .msg s.msgLen.toNat

/-! ### The host port (20_memory.md) -/

/-- R82: a narrow or a misaligned transaction is answered ERR with no effect. -/
def Obligations.NarrowOrMisalignedHasNoEffect : Prop :=
  ∀ (s : State) (t : Transaction), t.size ≠ .four ∨ t.off.toNat % 4 ≠ 0 →
    s.serve t = { s with answer := some .err }

/-- R84: a transaction at an unmapped offset is answered ERR with no effect. -/
def Obligations.UnmappedHasNoEffect : Prop :=
  ∀ (s : State) (t : Transaction),
    (0x7000 ≤ t.off.toNat ∨ (t.off.toNat < 0x1000 ∧ ∀ r : RegName, r.offset ≠ t.off.toNat) ∨
      (∃ b : Buf, b.base ≤ t.off.toNat ∧ t.off.toNat < b.base + 0x1000 ∧
        b.cap s.cfg.params ≤ t.off.toNat - b.base)) →
    s.serve t = { s with answer := some .err }

/-- R32 to R49, R89: what each register reads as; no register read changes the block. -/
def Obligations.RegisterReadsByOffset : Prop :=
  ∀ s : State,
    let rd := fun (off : BitVec 16) (v : Word) =>
      ∀ w : Word, s.serve ⟨.read, off, .four, w⟩ = { s with answer := some (.read v) }
    rd 0x000 0x4F414550 ∧ rd 0x004 0x00000001 ∧
    rd 0x008 (BitVec.ofNat 32 s.cfg.params.hLen) ∧ rd 0x00C (BitVec.ofNat 32 s.cfg.params.kMax) ∧
    rd 0x010 (BitVec.ofNat 32 s.cfg.params.lMax) ∧ rd 0x014 (BitVec.ofNat 32 s.cfg.params.inMax) ∧
    rd 0x018 (BitVec.ofNat 32 s.cfg.params.outMax) ∧
    rd 0x020 (if s.irqEn then 1 else 0) ∧ rd 0x024 0 ∧ rd 0x028 s.statusWord ∧
    rd 0x030 s.k ∧ rd 0x034 s.msgLen ∧ rd 0x038 s.labelLen ∧ rd 0x03C s.emLen ∧ rd 0x040 s.inLen ∧
    rd 0x044 s.maskLen ∧ rd 0x048 s.outLen

/-- R49 to R56: the fields of the STATUS word, its reserved bits 0. -/
def Obligations.StatusWordFields : Prop :=
  ∀ s : State,
    s.statusWord.getLsbD 0 = decide (s.seq ≠ .idle) ∧ s.statusWord.getLsbD 1 = s.done ∧
    s.statusWord.getLsbD 2 = decide (s.errCode ≠ 0) ∧ s.statusWord.extractLsb' 3 5 = 0 ∧
    s.statusWord.extractLsb' 8 4 = s.errCode ∧ s.statusWord.extractLsb' 12 4 = 0 ∧
    s.statusWord.extractLsb' 16 4 = s.errDetail ∧ s.statusWord.extractLsb' 20 4 = 0 ∧
    s.statusWord.getLsbD 24 = s.busyViol ∧ s.statusWord.extractLsb' 25 7 = 0

/-- R85, R86, R89: an IDLE read of a valid window word: byte o + n of the buffer in lane n, pad bytes 0x00; the block is
unchanged. -/
def Obligations.WindowReadLanes : Prop :=
  ∀ (s : State) (b : Buf) (o : Nat), s.seq = .idle → o < b.cap s.cfg.params → o % 4 = 0 →
    ∃ w : Word, s.serve (readOf (b.base + o)) = { s with answer := some (.read w) } ∧
      ∀ n < 4, w.extractLsb' (8 * n) 8 =
        if o + n < b.cap s.cfg.params then s.mem.read (b.base + o + n) else 0

/-- R99: a read of a valid window word while BUSY answers OK with a free value (log entry 4) and changes nothing of the
block. -/
def Obligations.BusyWindowReadIsFree : Prop :=
  ∀ (s : State) (b : Buf) (o : Nat), s.seq ≠ .idle → o < b.cap s.cfg.params → o % 4 = 0 →
    s.serve (readOf (b.base + o)) =
      { s with answer := some (.read (Config.freeWord s.draws)), draws := s.draws + 1 }

/-- R85, R90, R91: an IDLE write of a valid word of a host-writable window stores exactly its non-pad bytes. -/
def Obligations.WindowWriteStoresItsBytes : Prop :=
  ∀ (s : State) (b : Buf) (o : Nat) (v : Word), s.seq = .idle → b ≠ .out →
    o < b.cap s.cfg.params → o % 4 = 0 →
    ∃ m : Memory, s.serve (writeOf (b.base + o) v) = { s with mem := m, answer := some .written } ∧
      (∀ n < 4, o + n < b.cap s.cfg.params → Memory.read m (b.base + o + n) = v.extractLsb' (8 * n) 8) ∧
      ∀ a, a < b.base + o ∨ b.base + o + 4 ≤ a ∨ b.base + b.cap s.cfg.params ≤ a →
        Memory.read m a = s.mem.read a

/-- R95: a window word that is written is read back by the next read, when no byte of it is a pad byte. -/
def Obligations.WindowReadAfterWrite : Prop :=
  ∀ (s : State) (b : Buf) (o : Nat) (v : Word), s.seq = .idle → b ≠ .out →
    o + 4 ≤ b.cap s.cfg.params → o % 4 = 0 →
    ((s.serve (writeOf (b.base + o) v)).serve (readOf (b.base + o))).answer = some (.read v)

/-- R90, the registers. Writes to ID, VERSION, PARAM_*, OUT_LEN, and to the OUT_BUF window, are ignored (R32, R65), BUSY
or not; an IDLE write to a length register stores all 32 bits in it and changes nothing else (R40 to R45, R91); a STATUS
write clears DONE and BUSY_VIOL by ones and nothing else, BUSY or not (R49). All are answered OK. -/
def Obligations.RegisterWritesByOffset : Prop :=
  ∀ (s : State) (v : Word),
    (∀ off ∈ [0x000, 0x004, 0x008, 0x00C, 0x010, 0x014, 0x018, 0x048],
      s.serve (writeOf off v) = { s with answer := some .written }) ∧
    (∀ o, o < s.cfg.params.outMax → o % 4 = 0 →
      s.serve (writeOf (0x6000 + o) v) = { s with answer := some .written }) ∧
    (s.seq = .idle →
      s.serve (writeOf 0x030 v) = { s with k := v, answer := some .written } ∧
      s.serve (writeOf 0x034 v) = { s with msgLen := v, answer := some .written } ∧
      s.serve (writeOf 0x038 v) = { s with labelLen := v, answer := some .written } ∧
      s.serve (writeOf 0x03C v) = { s with emLen := v, answer := some .written } ∧
      s.serve (writeOf 0x040 v) = { s with inLen := v, answer := some .written } ∧
      s.serve (writeOf 0x044 v) = { s with maskLen := v, answer := some .written }) ∧
    s.serve (writeOf 0x028 v) =
      { s with
        done := if v.getLsbD 1 then false else s.done
        busyViol := if v.getLsbD 24 then false else s.busyViol
        answer := some .written }

/-- R55, R98: while BUSY, a write to CMD, to a length register, or to a valid word of a host-writable window is dropped
and sets BUSY_VIOL. -/
def Obligations.BusyWritesAreDropped : Prop :=
  ∀ (s : State) (v : Word), s.seq ≠ .idle →
    (∀ off ∈ [0x024, 0x030, 0x034, 0x038, 0x03C, 0x040, 0x044],
      s.serve (writeOf off v) = { s with busyViol := true, answer := some .written }) ∧
    (∀ (b : Buf) (o : Nat), b ≠ .out → o < b.cap s.cfg.params → o % 4 = 0 →
      s.serve (writeOf (b.base + o) v) = { s with busyViol := true, answer := some .written })

/-- R98, R216: whatever transactions are served while a command is BUSY, a soft reset excepted, its inputs stand as at
acceptance, and a command with no fresh seed completes as if it had completed at once (log entry 5). -/
def Obligations.InputsHeldWhileBusy : Prop :=
  ∀ (s : State) (i : Instr) (ts : List Transaction), s.seq = .busy i → s.rst = false →
    (∀ t ∈ ts, isSoftReset t = false) → s.inputs = ts.map .transact →
    ∃ u a b, Host.Core.run Sys2Proof.core ts.length s = .next u ∧
      u.seq = .busy i ∧ u.mem = s.mem ∧ u.k = s.k ∧ u.msgLen = s.msgLen ∧ u.labelLen = s.labelLen ∧
      u.emLen = s.emLen ∧ u.inLen = s.inLen ∧ u.maskLen = s.maskLen ∧ u.outLen = s.outLen ∧
      step u = .next a ∧ exec i s = .next b ∧
      (i ≠ .encode .fresh → a.mem = b.mem ∧ a.emLen = b.emLen ∧ a.msgLen = b.msgLen ∧
        a.outLen = b.outLen ∧ a.errCode = b.errCode ∧ a.errDetail = b.errDetail)

/-! ### Addresses and the host assembly (20_memory.md R80, 30_encoding.md section 6) -/

/-- R80: every offset of the block's page is reached by its bus address, and by no other; other addresses reach none (log
entry 15). -/
def Obligations.BusAddressesAreOffsetsFromBase : Prop :=
  ∀ (p : Params) (addr : Nat) (off : BitVec 16),
    offsetOf p (busAddress p off) = some off ∧
    (offsetOf p addr = some off ↔ addr = busAddress p off) ∧
    (offsetOf p addr = none ↔ addr < p.base ∨ p.base + 0x10000 ≤ addr)

/-- R121: each command pseudo-instruction of the host assembly issues its command. -/
def Obligations.CommandPseudosIssueTheirCommand : Prop :=
  ∀ s : State, s.seq = .idle → ∀ c ∈ [(HostOp.cmdEncode, Instr.encode .fresh),
      (HostOp.cmdEncodeHs, Instr.encode .seedBuf), (HostOp.cmdDecode, Instr.decode),
      (HostOp.cmdMgf1, Instr.mgf1), (HostOp.cmdHash, Instr.hash)],
    c.1.expand.foldl State.serve s =
      { s with done := false, errCode := 0, errDetail := 0, seq := .busy c.2, answer := some .written }

/-- R121 `load`: served while IDLE, its writes put the byte string at the start of the buffer, zeros in the rest of its
last word, and change nothing else. -/
def Obligations.LoadPutsTheBytesInTheBuffer : Prop :=
  ∀ (s : State) (b : Buf) (bytes : List Byte), s.seq = .idle → b ≠ .out →
    bytes.length ≤ b.cap s.cfg.params →
    let t := (HostOp.load b bytes).expand.foldl State.serve s
    t.slice b bytes.length = bytes ∧
    (∀ j, bytes.length ≤ j → j < 4 * ceilDiv bytes.length 4 → j < b.cap s.cfg.params →
      t.mem.read (b.base + j) = 0) ∧
    (∀ a, a < b.base ∨ b.base + 4 * ceilDiv bytes.length 4 ≤ a ∨ b.base + b.cap s.cfg.params ≤ a →
      t.mem.read a = s.mem.read a) ∧
    t = { s with mem := t.mem, answer := t.answer }

/-- R121 `wait`: the host reads STATUS until bit 1 of the result is 1. After any word written to CMD of an IDLE machine it
ends (R233); while a command is BUSY it ends with the command's completion, and the last word alone has bit 1; with
DONE = 1 it ends at the first read; with no command and DONE = 0 it does not end, whatever turns the core gets (R253), and
the host runs nothing more. The turns are the model's own (log entries 5 and 20). -/
def Obligations.WaitEndsWhenDoneIsRead : Prop :=
  ∀ h : HostState, h.machine.rst = false → h.waiting = false →
    (h.machine.seq = .idle → ∀ v : Word, ∃ h', runProgram [.swReg .cmd v, .wait] h = .next h' ∧
      h'.waiting = false ∧ h'.machine.done = true) ∧
    (∀ i, h.machine.seq = .busy i → h.machine.done = false →
      ∃ h' t ws, HostOp.wait.run h = .next h' ∧ exec i h.machine = .next t ∧ h'.waiting = false ∧
        h'.machine = { t with answer := some (.read t.statusWord) } ∧
        h'.reads = h.reads ++ ws ++ [t.statusWord] ∧ t.statusWord.getLsbD 1 = true ∧
        ∀ w ∈ ws, w = h.machine.statusWord ∧ w.getLsbD 1 = false) ∧
    (h.machine.seq = .idle → h.machine.done = true →
      HostOp.wait.run h = .next { h with
        machine := { h.machine with answer := some (.read h.machine.statusWord) }
        turns := h.turns.tail
        reads := h.reads ++ [h.machine.statusWord] }) ∧
    (h.machine.seq = .idle → h.machine.done = false →
      ∃ h', HostOp.wait.run h = .next h' ∧ h'.waiting = true ∧
        h'.machine = { h.machine with answer := h'.machine.answer } ∧ ∀ op, HostOp.run op h' = .next h')

/-- R121 `dump`: on an IDLE machine it reads the window words 0, 4, ... of the buffer, ceil(n / 4) of them, whose bytes
unpacked little-endian are the buffer's first n bytes, and changes nothing of the block. -/
def Obligations.DumpReadsTheBufferBytes : Prop :=
  ∀ (h : HostState) (b : Buf) (n : Nat), h.machine.rst = false → h.waiting = false → h.machine.seq = .idle →
    n ≤ b.cap h.machine.cfg.params →
    ∃ h' ws, (HostOp.dump b n).run h = .next h' ∧ h'.reads = h.reads ++ ws ∧
      ws.length = ceilDiv n 4 ∧ unpackWords n ws = h.machine.slice b n ∧
      h'.machine = { h.machine with answer := h'.machine.answer } ∧ h'.waiting = false

/-! ### Reset, interrupt, progress (60_exceptions.md, 70_reset_and_hazards.md) -/

/-- R70: the reset state of every instance. -/
def Obligations.ResetValues : Prop :=
  ∀ c : Cfg,
    let s := State.resetWith c
    s.cfg = c ∧ s.seq = .idle ∧ s.irqEn = false ∧ s.done = false ∧ s.busyViol = false ∧ s.errCode = 0 ∧
    s.errDetail = 0 ∧ s.k = 0 ∧ s.msgLen = 0 ∧ s.labelLen = 0 ∧ s.emLen = 0 ∧ s.inLen = 0 ∧
    s.maskLen = 0 ∧ s.outLen = 0 ∧ (∀ b n, s.slice b n = List.replicate n 0x00) ∧
    s.statusWord = 0 ∧ s.irq = false

/-- R241, R242: a soft reset, BUSY or not, leaves the reset values and commits nothing of a command it aborts; a write to
CTRL with bit 1 clear is no reset. -/
def Obligations.SoftResetClearsEverything : Prop :=
  ∀ (s : State) (v : Word),
    s.serve (writeOf 0x020 v) =
      if v.getLsbD 1 then
        { cfg := s.cfg, seq := .idle, irqEn := false, done := false, errCode := 0, errDetail := 0,
          busyViol := false, k := 0, msgLen := 0, labelLen := 0, emLen := 0, inLen := 0, maskLen := 0,
          outLen := 0, mem := [], inputs := s.inputs, answer := some .written, rst := s.rst,
          draws := s.draws }
      else { s with irqEn := v.getLsbD 0, answer := some .written }

/-- R240: when rst is released every piece of the architectural state has its reset value, and from its assertion on as
well; while it is asserted no transaction is served and no command completes; a move to the level rst has is no event.
All but the state at the release and that nothing is served is the model's choice: log entry 7. -/
def Obligations.HardwareReset : Prop :=
  (∀ (s : State) (l : Bool) (rest : List Input), s.inputs = .rst l :: rest → s.rst ≠ l →
    step s = .next
      { State.resetWith s.cfg with inputs := rest, answer := s.answer, rst := l, draws := s.draws }) ∧
  (∀ (s : State) (l : Bool) (rest : List Input), s.inputs = .rst l :: rest → s.rst = l →
    step s = .next { s with inputs := rest }) ∧
  (∀ (s : State) (t : Transaction) (rest : List Input), s.inputs = .transact t :: rest → s.rst = true →
    step s = .next { s with inputs := rest, answer := none }) ∧
  (∀ (s : State) (rest : List Input), s.inputs = .core :: rest → s.rst = true →
    step s = .next { s with inputs := rest })

/-- R224, R225: irq rises only by a completion, by the acceptance of an illegal word, or by a write that enables it while
DONE is 1; never by a bus error, BUSY_VIOL or a reset. -/
def Obligations.IrqRisesOnlyByCompletion : Prop :=
  ∀ s t : State, step s = .next t → s.irq = false → t.irq = true →
    (∃ i, s.seq = .busy i ∧ s.irqEn = true ∧ t.seq = .idle) ∨
    (∃ tr rest, s.inputs = .transact tr :: rest ∧ tr.kind = .write ∧ tr.off = 0x024 ∧
      s.seq = .idle ∧ s.irqEn = true ∧ ∃ r, decodeCmd tr.wdata = .illegal r) ∨
    (∃ tr rest, s.inputs = .transact tr :: rest ∧ tr.kind = .write ∧ tr.off = 0x020 ∧
      tr.wdata.getLsbD 1 = false ∧ tr.wdata.getLsbD 0 = true ∧ s.done = true)

/-- R58, R224: irq is DONE and IRQ_EN; a completion, successful or not, raises it exactly when it is enabled, and so does
an illegal command word. -/
def Obligations.CompletionRaisesIrqWhenEnabled : Prop :=
  (∀ s : State, s.irq = true ↔ s.done = true ∧ s.irqEn = true) ∧
  (∀ (i : Instr) (s t : State), exec i s = .next t → t.irq = s.irqEn) ∧
  (∀ (s : State) (v : Word) (r : IllegalReason), s.seq = .idle → decodeCmd v = .illegal r →
    (s.serve (writeOf 0x024 v)).irq = s.irqEn)

/-- R93, R99: a read, whatever its offset, changes nothing of the block but the model's own answer and count of draws
(log entries 4 and 6). -/
def Obligations.ReadsHaveNoSideEffect : Prop :=
  ∀ (s : State) (t : Transaction), t.kind = .read →
    ∃ a n, s.serve t = { s with answer := some a, draws := n } ∧ s.draws ≤ n ∧
      (s.seq = .idle → n = s.draws)

/-- R233: an accepted command completes after at most as many moves as the environment has, unless it is reset; the
machine stops for no reason on the way (weak fairness as the model has it: log entry 5; with rst low, a move that drives
it low is no event: log entry 7). -/
def Obligations.AcceptedCommandCompletes : Prop :=
  ∀ (s : State) (i : Instr), s.seq = .busy i → s.rst = false →
    (∀ t, .transact t ∈ s.inputs → isSoftReset t = false) → Input.rst true ∉ s.inputs →
    ∃ n u t, n ≤ s.inputs.length ∧ Host.Core.run Sys2Proof.core n s = .next u ∧ u.seq = .busy i ∧
      step u = .next t ∧ t.seq = .idle ∧ t.done = true

/-- R230: an IDLE machine to which nothing happens keeps every piece of its state (log entry 5). -/
def Obligations.IdleKeepsItsState : Prop :=
  ∀ s : State, s.seq = .idle →
    (s.inputs = [] → step s = .next s) ∧
    (∀ rest, s.inputs = .core :: rest → step s = .next { s with inputs := rest })

/-! ### Invariants of every step -/

/-- The invariant of Safety.lean holds right after reset, of every instance (log entries 1, 7, 12). -/
def Obligations.InvariantHoldsAtReset : Prop :=
  Inv State.reset ∧ ∀ c : Cfg, Inv (State.resetWith c)

/-- R98, R222, R242, step by step, from every BUSY state: the step keeps the accepted command and everything it reads and
will write, or it is the command's own completion, or it is a soft reset or a change of rst and leaves the reset state
with nothing committed and no seed drawn. The moves are the model's (log entries 5 and 7). -/
def Obligations.BusyEndsOnlyByCompletionOrReset : Prop :=
  ∀ (s t : State) (i : Instr), s.seq = .busy i → step s = .next t →
    (t = { s with
        irqEn := t.irqEn, done := t.done, busyViol := t.busyViol, inputs := s.inputs.tail
        answer := t.answer, draws := t.draws }) ∨
    (s.rst = false ∧ exec i { s with inputs := s.inputs.tail } = .next t) ∨
    (((∃ tr rest, s.inputs = .transact tr :: rest ∧ isSoftReset tr = true) ∨
        (∃ rest, s.inputs = .rst (!s.rst) :: rest)) ∧
      t = { State.resetWith s.cfg with
        inputs := s.inputs.tail, answer := t.answer, rst := t.rst, draws := s.draws })

/-- Every step keeps the invariant: canonical memory inside the buffers, legal outcomes only, no outcome while BUSY, the
result in OUT_BUF bounded by OUT_LEN with zeros after it, the reset state held under rst (log entries 7, 12). -/
def Obligations.StepKeepsInvariant : Prop :=
  ∀ s t : State, Inv s → step s = .next t → Inv t

/-- R69: no step changes the configuration of an instance (carried in State: log entry 1), so ID, VERSION and PARAM_*
read the same before and after. -/
def Obligations.StepKeepsConfiguration : Prop :=
  ∀ s t : State, step s = .next t → t.cfg = s.cfg ∧
    ∀ r ∈ [RegName.id, .version, .paramHlen, .paramKmax, .paramLmax, .paramInmax, .paramOutmax],
      t.readReg r = s.readReg r

/-- R62, R251: no command changes SEED_BUF, LABEL_BUF or IN_BUF, and a drawn seed is stored in none of them. -/
def Obligations.InputBuffersAreNeverWrittenByCommands : Prop :=
  ∀ (i : Instr) (s t : State), exec i s = .next t →
    ∀ b ∈ [Buf.label, Buf.seed, Buf.inp], ∀ n ≤ 4096, t.slice b n = s.slice b n
end

