-- ==== Sys2Proof/Laws/Memory.lean ====
section
/-! SUPPORT. What the three memory operations do: reading after replacing, the canonical form they keep, and that
equal contents are equal lists. -/

namespace Sys2Proof.Machine

theorem Memory.read_append_left {l₂ : Memory} {a : Nat} (l₁ : Memory) (h : ∀ c ∈ l₂, c.1 ≠ a) :
    Memory.read (l₁ ++ l₂) a = Memory.read l₁ a := by
  induction l₁ with
  | nil =>
    show Memory.read l₂ a = 0
    induction l₂ with
    | nil => rfl
    | cons c t ih =>
      have hc : c.1 ≠ a := h c (by simp)
      simp [Memory.read, hc, ih fun d hd => h d (by simp [hd])]
  | cons c t ih => simp only [List.cons_append, Memory.read, ih]

theorem Memory.read_append_right {l₁ : Memory} {a : Nat} (l₂ : Memory) (h : ∀ c ∈ l₁, c.1 ≠ a) :
    Memory.read (l₁ ++ l₂) a = Memory.read l₂ a := by
  induction l₁ with
  | nil => rfl
  | cons c t ih =>
    have hc : c.1 ≠ a := h c (by simp)
    simp [Memory.read, hc, ih fun d hd => h d (by simp [hd])]

theorem Memory.read_absent {m : Memory} {a : Nat} (h : ∀ c ∈ m, c.1 ≠ a) : m.read a = 0 := by
  simpa [Memory.read] using Memory.read_append_right (l₁ := m) [] h

theorem Memory.read_filter (m : Memory) (P : Nat → Bool) {a : Nat} (h : P a = true) :
    Memory.read (m.filter fun c => P c.1) a = m.read a := by
  induction m with
  | nil => rfl
  | cons c t ih =>
    by_cases hc : P c.1 = true
    · simp [List.filter_cons_of_pos, hc, Memory.read, ih]
    · have : c.1 ≠ a := fun e => hc (e ▸ h)
      simp [hc, Memory.read, ih, this]

theorem cellsOf_key {a : Nat} {bs : List Byte} {c : Host.Cell} (h : c ∈ cellsOf a bs) :
    a ≤ c.1 ∧ c.1 < a + bs.length := by
  induction bs generalizing a with
  | nil => simp [cellsOf] at h
  | cons b t ih =>
    simp only [cellsOf] at h
    split at h
    · have := ih h; simp only [List.length_cons]; omega
    · rcases List.mem_cons.1 h with rfl | h
      · simp
      · have := ih h; simp only [List.length_cons]; omega

theorem cellsOf_value {a : Nat} {bs : List Byte} {c : Host.Cell} (h : c ∈ cellsOf a bs) : c.2 ≠ 0 := by
  induction bs generalizing a with
  | nil => simp [cellsOf] at h
  | cons b t ih =>
    simp only [cellsOf] at h
    split at h
    · exact ih h
    · rcases List.mem_cons.1 h with rfl | h
      · assumption
      · exact ih h

theorem read_cellsOf (a : Nat) (bs : List Byte) (i : Nat) :
    Memory.read (cellsOf a bs) (a + i) = bs.getD i 0 := by
  induction bs generalizing a i with
  | nil => simp [cellsOf, Memory.read]
  | cons b t ih =>
    have hk : ∀ c ∈ cellsOf (a + 1) t, c.1 ≠ a := fun c hc => by have := cellsOf_key hc; omega
    cases i with
    | zero =>
      by_cases hb : b = 0
      · simp [cellsOf, hb, Memory.read_absent hk]
      · rw [cellsOf, if_neg hb]; simp [Memory.read]
    | succ i =>
      have e : a + (i + 1) = a + 1 + i := by omega
      by_cases hb : b = 0
      · simp only [cellsOf, hb, if_true, e, ih]; simp
      · have : a ≠ a + 1 + i := by omega
        simp only [cellsOf, hb, if_false, e, Memory.read, this, ih]; simp

/-- Reading after replacing: the new string inside its range, the old memory outside. -/
theorem Memory.read_replace (m : Memory) (a : Nat) (bs : List Byte) (x : Nat) :
    (m.replace a bs).read x =
      if a ≤ x ∧ x < a + bs.length then bs.getD (x - a) 0 else m.read x := by
  unfold Memory.replace
  have hL : ∀ c ∈ m.filter (fun c => decide (c.1 < a)), c.1 < a := by simp
  have hR : ∀ c ∈ m.filter (fun c => decide (a + bs.length ≤ c.1)), a + bs.length ≤ c.1 := by simp
  have hM := fun c (hc : c ∈ cellsOf a bs) => cellsOf_key hc
  by_cases h1 : x < a
  · rw [Memory.read_append_left, Memory.read_filter m (fun k => decide (k < a)) (by simpa using h1)]
    · simp [show ¬ a ≤ x by omega]
    · intro c hc
      rcases List.mem_append.1 hc with hc | hc
      · have := hM c hc; omega
      · have := hR c hc; omega
  · rw [Memory.read_append_right]
    · by_cases h2 : x < a + bs.length
      · rw [Memory.read_append_left _ (fun c hc => by have := hR c hc; omega)]
        have := read_cellsOf a bs (x - a)
        rw [show a + (x - a) = x by omega] at this
        simp [this, show a ≤ x by omega, h2]
      · rw [Memory.read_append_right _ (fun c hc => by have := hM c hc; omega),
          Memory.read_filter m (fun k => decide (a + bs.length ≤ k)) (by simpa using h2)]
        simp [h2]
    · intro c hc; have := hL c hc; omega

theorem Memory.read_replace_outside {m : Memory} {a : Nat} {bs : List Byte} {x : Nat}
    (h : x < a ∨ a + bs.length ≤ x) : (m.replace a bs).read x = m.read x := by
  rw [Memory.read_replace, if_neg (by omega)]

theorem Memory.read_replace_inside {m : Memory} {a : Nat} {bs : List Byte} {i : Nat}
    (h : i < bs.length) : (m.replace a bs).read (a + i) = bs.getD i 0 := by
  rw [Memory.read_replace, if_pos (by omega), Nat.add_sub_cancel_left]

theorem Memory.mem_replace {m : Memory} {a : Nat} {bs : List Byte} {c : Host.Cell}
    (h : c ∈ m.replace a bs) : c ∈ m ∨ (a ≤ c.1 ∧ c.1 < a + bs.length) := by
  unfold Memory.replace at h
  rcases List.mem_append.1 h with h | h
  · exact .inl (List.mem_filter.1 h).1
  · rcases List.mem_append.1 h with h | h
    · exact .inr (cellsOf_key h)
    · exact .inl (List.mem_filter.1 h).1

/-! ### The canonical form -/

theorem Memory.wf_iff (m : Memory) :
    m.wf = true ↔ (m.Pairwise fun c d => c.1 < d.1) ∧ ∀ c ∈ m, c.2 ≠ 0 := by
  simp [Memory.wf]

theorem Memory.wf_nil : Memory.wf [] = true := rfl

theorem cellsOf_pairwise (a : Nat) (bs : List Byte) :
    (cellsOf a bs).Pairwise fun c d => c.1 < d.1 := by
  induction bs generalizing a with
  | nil => exact List.Pairwise.nil
  | cons b t ih =>
    simp only [cellsOf]
    split
    · exact ih _
    · exact List.pairwise_cons.2 ⟨fun c hc => by have := cellsOf_key hc; simp only; omega, ih _⟩

/-- Replacing keeps the canonical form. -/
theorem Memory.wf_replace {m : Memory} (h : m.wf = true) (a : Nat) (bs : List Byte) :
    (m.replace a bs).wf = true := by
  rw [Memory.wf_iff] at h ⊢
  obtain ⟨hp, hz⟩ := h
  unfold Memory.replace
  refine ⟨List.pairwise_append.2 ⟨hp.filter _, List.pairwise_append.2
    ⟨cellsOf_pairwise a bs, hp.filter _, fun c hc d hd => ?_⟩, fun c hc d hd => ?_⟩, fun c hc => ?_⟩
  · have := cellsOf_key hc
    have : a + bs.length ≤ d.1 := by simpa using (List.mem_filter.1 hd).2
    omega
  · have h1 : c.1 < a := by simpa using (List.mem_filter.1 hc).2
    rcases List.mem_append.1 hd with hd | hd
    · have := cellsOf_key hd; omega
    · have : a + bs.length ≤ d.1 := by simpa using (List.mem_filter.1 hd).2
      omega
  · rcases List.mem_append.1 hc with hc | hc
    · exact hz c (List.mem_filter.1 hc).1
    · rcases List.mem_append.1 hc with hc | hc
      · exact cellsOf_value hc
      · exact hz c (List.mem_filter.1 hc).1

theorem Memory.read_cons_self (c : Host.Cell) (t : Memory) : Memory.read (c :: t) c.1 = c.2 := by
  simp [Memory.read]

/-- Two canonical memories with the same contents are the same list. -/
theorem Memory.ext_of_wf {m m' : Memory} (h : m.wf = true) (h' : m'.wf = true)
    (heq : ∀ a, m.read a = m'.read a) : m = m' := by
  rw [Memory.wf_iff] at h h'
  induction m generalizing m' with
  | nil =>
    cases m' with
    | nil => rfl
    | cons d t => exact absurd (heq d.1).symm (by simpa [Memory.read] using h'.2 d (by simp))
  | cons c t ih =>
    obtain ⟨hc, hz⟩ := h
    rw [List.pairwise_cons] at hc
    cases m' with
    | nil => exact absurd (heq c.1) (by simpa [Memory.read] using hz c (by simp))
    | cons d t' =>
      obtain ⟨hd, hz'⟩ := h'
      rw [List.pairwise_cons] at hd
      have ht : ∀ a, a ≤ c.1 → Memory.read t a = 0 := fun a ha =>
        Memory.read_absent fun x hx => by have := hc.1 x hx; omega
      have ht' : ∀ a, a ≤ d.1 → Memory.read t' a = 0 := fun a ha =>
        Memory.read_absent fun x hx => by have := hd.1 x hx; omega
      have hk : c.1 = d.1 := by
        rcases Nat.lt_trichotomy c.1 d.1 with hlt | he | hgt
        · have := heq c.1
          rw [Memory.read_cons_self] at this
          simp only [Memory.read, show d.1 ≠ c.1 by omega, if_false, ht' c.1 (by omega)] at this
          exact absurd this (hz c (by simp))
        · exact he
        · have := heq d.1
          rw [Memory.read_cons_self] at this
          simp only [Memory.read, show c.1 ≠ d.1 by omega, if_false, ht d.1 (by omega)] at this
          exact absurd this.symm (hz' d (by simp))
      have hv : c.2 = d.2 := by
        have := heq c.1
        rw [Memory.read_cons_self, hk, Memory.read_cons_self] at this
        exact this
      have hcd : c = d := Prod.ext hk hv
      subst hcd
      congr 1
      refine ih ⟨hc.2, fun x hx => hz x (by simp [hx])⟩ ⟨hd.2, fun x hx => hz' x (by simp [hx])⟩
        fun a => ?_
      by_cases ha : a ≤ c.1
      · rw [ht a ha, ht' a ha]
      · have := heq a
        simpa only [Memory.read, show c.1 ≠ a by omega, if_false] using this

/-! ### Strings -/

@[simp] theorem Memory.length_readBytes (m : Memory) (a n : Nat) : (m.readBytes a n).length = n := by
  simp [Memory.readBytes]

theorem Memory.getD_readBytes (m : Memory) (a n i : Nat) (h : i < n) :
    (m.readBytes a n).getD i 0 = m.read (a + i) := by
  simp [Memory.readBytes, List.getD, h]

theorem Memory.readBytes_congr {m m' : Memory} {a n : Nat}
    (h : ∀ i < n, m.read (a + i) = m'.read (a + i)) : m.readBytes a n = m'.readBytes a n := by
  unfold Memory.readBytes
  exact List.map_congr_left fun i hi => h i (List.mem_range.1 hi)

/-- A string replaced is read back. -/
theorem Memory.readBytes_replace (m : Memory) (a : Nat) (bs : List Byte) {n : Nat}
    (h : n ≤ bs.length) : (m.replace a bs).readBytes a n = bs.take n := by
  apply List.ext_getElem
  · simp [Nat.min_eq_left h]
  · intro i h1 h2
    have hi : i < n := by simpa using h1
    simp only [Memory.readBytes, List.getElem_map, List.getElem_range, List.getElem_take]
    rw [Memory.read_replace_inside (by omega), List.getD_eq_getElem _ _ (by omega)]

/-- A string outside a replaced range is read as before. -/
theorem Memory.readBytes_replace_outside {m : Memory} {a : Nat} {bs : List Byte} {x n : Nat}
    (h : x + n ≤ a ∨ a + bs.length ≤ x) : (m.replace a bs).readBytes x n = m.readBytes x n :=
  Memory.readBytes_congr fun i hi => Memory.read_replace_outside (by omega)

end Sys2Proof.Machine
end

