-- ==== Sys2Proof/Laws/Bytes.lean ====
section
/-! SUPPORT. Byte strings: lengths, XOR undone by XOR, ceil, and the lanes of a bus word. -/

namespace Sys2Proof.Machine

@[simp] theorem length_zeros (n : Nat) : (zeros n).length = n := by simp [zeros]

theorem getD_zeros (n i : Nat) : (zeros n).getD i 0 = 0 := by
  simp only [zeros, List.getD, List.getElem?_replicate]
  split <;> rfl

theorem mem_zeros {n : Nat} {b : Byte} (h : b ∈ zeros n) : b = 0 := List.eq_of_mem_replicate h

@[simp] theorem length_xorBytes (a b : List Byte) :
    (xorBytes a b).length = min a.length b.length := by simp [xorBytes]

/-- XOR twice with the same string gives the string back. -/
theorem xorBytes_cancel {a b : List Byte} (h : a.length ≤ b.length) :
    xorBytes (xorBytes a b) b = a := by
  induction a generalizing b with
  | nil => simp [xorBytes]
  | cons x t ih =>
    cases b with
    | nil => simp at h
    | cons y u =>
      simp only [xorBytes, List.zipWith_cons_cons, List.cons.injEq] at *
      exact ⟨by rw [BitVec.xor_assoc, BitVec.xor_self, BitVec.xor_zero],
        ih (by simpa using h)⟩

@[simp] theorem length_be32 (i : Nat) : (be32 i).length = 4 := rfl

@[simp] theorem length_bytesOfWord (w : Word) : (bytesOfWord w).length = 4 := rfl

/-- `ceilDiv a b` blocks of b bytes hold a bytes. -/
theorem le_ceilDiv_mul (a : Nat) {b : Nat} (hb : 0 < b) : a ≤ ceilDiv a b * b := by
  unfold ceilDiv
  have h1 := Nat.div_add_mod (a + b - 1) b
  have h2 := Nat.mod_lt (a + b - 1) hb
  rw [Nat.mul_comm] at h1
  omega

/-- `ceilDiv a b` is the least such number. -/
theorem ceilDiv_le {a b q : Nat} (hb : 0 < b) (h : a ≤ q * b) : ceilDiv a b ≤ q := by
  unfold ceilDiv
  refine Nat.le_of_lt_succ ((Nat.div_lt_iff_lt_mul hb).2 ?_)
  rw [Nat.succ_mul]; omega

theorem ceilDiv_mono {a a' : Nat} (b : Nat) (h : a ≤ a') : ceilDiv a b ≤ ceilDiv a' b :=
  Nat.div_le_div_right (by omega)

theorem ceilDiv_mul (q : Nat) {b : Nat} (hb : 0 < b) : ceilDiv (q * b) b = q := by
  refine le_antisymm (ceilDiv_le hb le_rfl) ?_
  have := le_ceilDiv_mul (q * b) hb
  exact Nat.le_of_mul_le_mul_right this hb

/-! ### Lanes -/

/-- Byte lane `i` of a bus word (R86). -/
theorem bytesOfWord_wordOfBytes (b0 b1 b2 b3 : Byte) :
    bytesOfWord (wordOfBytes b0 b1 b2 b3) = [b0, b1, b2, b3] := by
  simp only [bytesOfWord, wordOfBytes, List.cons.injEq, and_true]
  refine ⟨?_, ?_, ?_, ?_⟩ <;> apply BitVec.eq_of_getLsbD_eq <;> intro i hi <;>
    simp only [BitVec.getLsbD_extractLsb', BitVec.getLsbD_append] <;>
    interval_cases i <;> simp

theorem wordOfBytes_bytesOfWord (w : Word) :
    wordOfBytes (w.extractLsb' 0 8) (w.extractLsb' 8 8) (w.extractLsb' 16 8) (w.extractLsb' 24 8) = w := by
  apply BitVec.eq_of_getLsbD_eq
  intro i hi
  simp only [wordOfBytes, BitVec.getLsbD_extractLsb', BitVec.getLsbD_append]
  interval_cases i <;> simp

/-! ### Lanes of a bus word (R86) -/

/-- Lane `n` of a word is byte `n` of the four it was made of. -/
theorem lane_wordOfBytes (a b c d : Byte) {n : Nat} (h : n < 4) :
    (wordOfBytes a b c d).extractLsb' (8 * n) 8 = [a, b, c, d].getD n 0 := by
  have h4 : n = 0 ∨ n = 1 ∨ n = 2 ∨ n = 3 := by omega
  unfold wordOfBytes
  rcases h4 with rfl | rfl | rfl | rfl <;>
  · apply BitVec.eq_of_getLsbD_eq
    intro i hi
    simp only [BitVec.getLsbD_extractLsb', hi, decide_true, Bool.true_and, BitVec.getLsbD_append,
      Nat.mul_zero, Nat.zero_add, List.getD_cons_zero, List.getD_cons_succ]
    repeat' split
    all_goals first | omega | rfl | (exfalso; simp_all; done) | (apply congrArg; omega)

/-- The lanes of a word, put together again, are the word. -/
theorem wordOfBytes_lanes (v : Word) :
    wordOfBytes (v.extractLsb' 0 8) (v.extractLsb' 8 8) (v.extractLsb' 16 8) (v.extractLsb' 24 8) = v := by
  apply BitVec.eq_of_getLsbD_eq
  intro i hi
  simp only [wordOfBytes, BitVec.getLsbD_extractLsb', BitVec.getLsbD_append]
  split
  · simp [*]
  · split
    · simp only [show i - 8 < 8 by omega, decide_true, Bool.true_and]
      rw [show 16 - 8 + (i - 8) = i by omega]
    · split
      · simp only [show i - 8 - 8 < 8 by omega, decide_true, Bool.true_and]
        rw [show 16 + (i - 8 - 8) = i by omega]
      · simp only [show i - 8 - 8 - 8 < 8 by omega, decide_true, Bool.true_and]
        rw [show 24 + (i - 8 - 8 - 8) = i by omega]

/-- Byte `n` of a word's bytes is its lane `n`. -/
theorem getD_bytesOfWord (v : Word) {n : Nat} (h : n < 4) :
    (bytesOfWord v).getD n 0 = v.extractLsb' (8 * n) 8 := by
  have h4 : n = 0 ∨ n = 1 ∨ n = 2 ∨ n = 3 := by omega
  rcases h4 with rfl | rfl | rfl | rfl <;> rfl

end Sys2Proof.Machine
end

