-- ==== Sys2Proof/Laws/Primitives.lean ====
section
/-! SUPPORT. The hash and the mask: their lengths, and the mask of a shorter length as the start of a longer one. -/

namespace Sys2Proof.Machine

theorem length_toy4 (x : List Byte) : (toy4 x).length = 4 := rfl

theorem length_sha1 (x : List Byte) : (sha1 x).length = 20 := rfl

/-- P7 (R11): every digest of a well-formed instance has H_LEN bytes. -/
theorem length_hash (c : Cfg) (x : List Byte) : (hash c.params x).length = c.params.hLen := by
  have h7 : c.params.p7 = true := ((Params.wellFormed_iff _).1 c.ok).2.2.2.2.2.2.2.2.2.2.2
  unfold Params.p7 at h7
  unfold hash
  split <;> rename_i heq <;> simp only [heq] at h7
  · simp
  · rw [length_toy4, of_decide_eq_true h7]
  · rw [length_sha1, of_decide_eq_true h7]

theorem hLen_pos (c : Cfg) : 0 < c.params.hLen := ((Params.wellFormed_iff _).1 c.ok).1

theorem length_mgfBlocks (c : Cfg) (z : List Byte) (n : Nat) :
    ((List.range n).flatMap (mgfBlock c.params z)).length = n * c.params.hLen := by
  induction n with
  | zero => simp
  | succ n ih =>
    rw [List.range_succ, List.flatMap_append, List.length_append, ih]
    simp only [List.flatMap_cons, List.flatMap_nil, List.append_nil, mgfBlock, length_hash]
    rw [Nat.succ_mul]

/-- The mask has exactly the length asked for (R136). -/
theorem length_mgfMask (c : Cfg) (z : List Byte) (l : Nat) : (mgfMask c.params z l).length = l := by
  unfold mgfMask
  rw [List.length_take, length_mgfBlocks]
  exact Nat.min_eq_left (le_ceilDiv_mul l (hLen_pos c))

/-- MGF1 succeeds within its bound (R135). -/
theorem mgf1_of_le {p : Params} {z : List Byte} {l : Nat} (h : l ≤ 2 ^ 32 * p.hLen) :
    mgf1 p z l = .ok (mgfMask p z l) := if_neg (by omega)

/-- More blocks than a mask needs do not change it. -/
theorem mgfMask_of_blocks (c : Cfg) (z : List Byte) {l n : Nat} (h : ceilDiv l c.params.hLen ≤ n) :
    mgfMask c.params z l = ((List.range n).flatMap (mgfBlock c.params z)).take l := by
  obtain ⟨d, rfl⟩ := Nat.exists_eq_add_of_le h
  unfold mgfMask
  rw [List.range_add, List.flatMap_append, List.take_append_of_le_length]
  rw [length_mgfBlocks]
  exact le_ceilDiv_mul l (hLen_pos c)

end Sys2Proof.Machine
end

