-- ==== Sys2Proof/Laws/State.lean ====
section
/-! SUPPORT. One lemma per field of State per named update, so that no proof unfolds a record update. -/

namespace Sys2Proof.Machine

/-! ### `State.setOutcome` -/

@[simp] theorem State.setOutcome_cfg (s : State) (c d : BitVec 4) :
    (s.setOutcome c d).cfg = s.cfg := rfl

@[simp] theorem State.setOutcome_seq (s : State) (c d : BitVec 4) :
    (s.setOutcome c d).seq = s.seq := rfl

@[simp] theorem State.setOutcome_irqEn (s : State) (c d : BitVec 4) :
    (s.setOutcome c d).irqEn = s.irqEn := rfl

@[simp] theorem State.setOutcome_done (s : State) (c d : BitVec 4) :
    (s.setOutcome c d).done = s.done := rfl

@[simp] theorem State.setOutcome_errCode (s : State) (c d : BitVec 4) :
    (s.setOutcome c d).errCode = c := rfl

@[simp] theorem State.setOutcome_errDetail (s : State) (c d : BitVec 4) :
    (s.setOutcome c d).errDetail = d := rfl

@[simp] theorem State.setOutcome_busyViol (s : State) (c d : BitVec 4) :
    (s.setOutcome c d).busyViol = s.busyViol := rfl

@[simp] theorem State.setOutcome_k (s : State) (c d : BitVec 4) :
    (s.setOutcome c d).k = s.k := rfl

@[simp] theorem State.setOutcome_msgLen (s : State) (c d : BitVec 4) :
    (s.setOutcome c d).msgLen = s.msgLen := rfl

@[simp] theorem State.setOutcome_labelLen (s : State) (c d : BitVec 4) :
    (s.setOutcome c d).labelLen = s.labelLen := rfl

@[simp] theorem State.setOutcome_emLen (s : State) (c d : BitVec 4) :
    (s.setOutcome c d).emLen = s.emLen := rfl

@[simp] theorem State.setOutcome_inLen (s : State) (c d : BitVec 4) :
    (s.setOutcome c d).inLen = s.inLen := rfl

@[simp] theorem State.setOutcome_maskLen (s : State) (c d : BitVec 4) :
    (s.setOutcome c d).maskLen = s.maskLen := rfl

@[simp] theorem State.setOutcome_outLen (s : State) (c d : BitVec 4) :
    (s.setOutcome c d).outLen = s.outLen := rfl

@[simp] theorem State.setOutcome_mem (s : State) (c d : BitVec 4) :
    (s.setOutcome c d).mem = s.mem := rfl

@[simp] theorem State.setOutcome_inputs (s : State) (c d : BitVec 4) :
    (s.setOutcome c d).inputs = s.inputs := rfl

@[simp] theorem State.setOutcome_answer (s : State) (c d : BitVec 4) :
    (s.setOutcome c d).answer = s.answer := rfl

@[simp] theorem State.setOutcome_rst (s : State) (c d : BitVec 4) :
    (s.setOutcome c d).rst = s.rst := rfl

@[simp] theorem State.setOutcome_draws (s : State) (c d : BitVec 4) :
    (s.setOutcome c d).draws = s.draws := rfl

/-! ### `State.violate` -/

@[simp] theorem State.violate_cfg (s : State) :
    (s.violate).cfg = s.cfg := rfl

@[simp] theorem State.violate_seq (s : State) :
    (s.violate).seq = s.seq := rfl

@[simp] theorem State.violate_irqEn (s : State) :
    (s.violate).irqEn = s.irqEn := rfl

@[simp] theorem State.violate_done (s : State) :
    (s.violate).done = s.done := rfl

@[simp] theorem State.violate_errCode (s : State) :
    (s.violate).errCode = s.errCode := rfl

@[simp] theorem State.violate_errDetail (s : State) :
    (s.violate).errDetail = s.errDetail := rfl

@[simp] theorem State.violate_busyViol (s : State) :
    (s.violate).busyViol = true := rfl

@[simp] theorem State.violate_k (s : State) :
    (s.violate).k = s.k := rfl

@[simp] theorem State.violate_msgLen (s : State) :
    (s.violate).msgLen = s.msgLen := rfl

@[simp] theorem State.violate_labelLen (s : State) :
    (s.violate).labelLen = s.labelLen := rfl

@[simp] theorem State.violate_emLen (s : State) :
    (s.violate).emLen = s.emLen := rfl

@[simp] theorem State.violate_inLen (s : State) :
    (s.violate).inLen = s.inLen := rfl

@[simp] theorem State.violate_maskLen (s : State) :
    (s.violate).maskLen = s.maskLen := rfl

@[simp] theorem State.violate_outLen (s : State) :
    (s.violate).outLen = s.outLen := rfl

@[simp] theorem State.violate_mem (s : State) :
    (s.violate).mem = s.mem := rfl

@[simp] theorem State.violate_inputs (s : State) :
    (s.violate).inputs = s.inputs := rfl

@[simp] theorem State.violate_answer (s : State) :
    (s.violate).answer = s.answer := rfl

@[simp] theorem State.violate_rst (s : State) :
    (s.violate).rst = s.rst := rfl

@[simp] theorem State.violate_draws (s : State) :
    (s.violate).draws = s.draws := rfl

/-! ### `State.writeStatus` -/

@[simp] theorem State.writeStatus_cfg (s : State) (v : Word) :
    (s.writeStatus v).cfg = s.cfg := rfl

@[simp] theorem State.writeStatus_seq (s : State) (v : Word) :
    (s.writeStatus v).seq = s.seq := rfl

@[simp] theorem State.writeStatus_irqEn (s : State) (v : Word) :
    (s.writeStatus v).irqEn = s.irqEn := rfl

@[simp] theorem State.writeStatus_done (s : State) (v : Word) :
    (s.writeStatus v).done = (s.done && !v.getLsbD 1) := rfl

@[simp] theorem State.writeStatus_errCode (s : State) (v : Word) :
    (s.writeStatus v).errCode = s.errCode := rfl

@[simp] theorem State.writeStatus_errDetail (s : State) (v : Word) :
    (s.writeStatus v).errDetail = s.errDetail := rfl

@[simp] theorem State.writeStatus_busyViol (s : State) (v : Word) :
    (s.writeStatus v).busyViol = (s.busyViol && !v.getLsbD 24) := rfl

@[simp] theorem State.writeStatus_k (s : State) (v : Word) :
    (s.writeStatus v).k = s.k := rfl

@[simp] theorem State.writeStatus_msgLen (s : State) (v : Word) :
    (s.writeStatus v).msgLen = s.msgLen := rfl

@[simp] theorem State.writeStatus_labelLen (s : State) (v : Word) :
    (s.writeStatus v).labelLen = s.labelLen := rfl

@[simp] theorem State.writeStatus_emLen (s : State) (v : Word) :
    (s.writeStatus v).emLen = s.emLen := rfl

@[simp] theorem State.writeStatus_inLen (s : State) (v : Word) :
    (s.writeStatus v).inLen = s.inLen := rfl

@[simp] theorem State.writeStatus_maskLen (s : State) (v : Word) :
    (s.writeStatus v).maskLen = s.maskLen := rfl

@[simp] theorem State.writeStatus_outLen (s : State) (v : Word) :
    (s.writeStatus v).outLen = s.outLen := rfl

@[simp] theorem State.writeStatus_mem (s : State) (v : Word) :
    (s.writeStatus v).mem = s.mem := rfl

@[simp] theorem State.writeStatus_inputs (s : State) (v : Word) :
    (s.writeStatus v).inputs = s.inputs := rfl

@[simp] theorem State.writeStatus_answer (s : State) (v : Word) :
    (s.writeStatus v).answer = s.answer := rfl

@[simp] theorem State.writeStatus_rst (s : State) (v : Word) :
    (s.writeStatus v).rst = s.rst := rfl

@[simp] theorem State.writeStatus_draws (s : State) (v : Word) :
    (s.writeStatus v).draws = s.draws := rfl

/-! ### `State.writeBuf` -/

@[simp] theorem State.writeBuf_cfg (s : State) (b : Buf) (o : Nat) (bs : List Byte) :
    (s.writeBuf b o bs).cfg = s.cfg := rfl

@[simp] theorem State.writeBuf_seq (s : State) (b : Buf) (o : Nat) (bs : List Byte) :
    (s.writeBuf b o bs).seq = s.seq := rfl

@[simp] theorem State.writeBuf_irqEn (s : State) (b : Buf) (o : Nat) (bs : List Byte) :
    (s.writeBuf b o bs).irqEn = s.irqEn := rfl

@[simp] theorem State.writeBuf_done (s : State) (b : Buf) (o : Nat) (bs : List Byte) :
    (s.writeBuf b o bs).done = s.done := rfl

@[simp] theorem State.writeBuf_errCode (s : State) (b : Buf) (o : Nat) (bs : List Byte) :
    (s.writeBuf b o bs).errCode = s.errCode := rfl

@[simp] theorem State.writeBuf_errDetail (s : State) (b : Buf) (o : Nat) (bs : List Byte) :
    (s.writeBuf b o bs).errDetail = s.errDetail := rfl

@[simp] theorem State.writeBuf_busyViol (s : State) (b : Buf) (o : Nat) (bs : List Byte) :
    (s.writeBuf b o bs).busyViol = s.busyViol := rfl

@[simp] theorem State.writeBuf_k (s : State) (b : Buf) (o : Nat) (bs : List Byte) :
    (s.writeBuf b o bs).k = s.k := rfl

@[simp] theorem State.writeBuf_msgLen (s : State) (b : Buf) (o : Nat) (bs : List Byte) :
    (s.writeBuf b o bs).msgLen = s.msgLen := rfl

@[simp] theorem State.writeBuf_labelLen (s : State) (b : Buf) (o : Nat) (bs : List Byte) :
    (s.writeBuf b o bs).labelLen = s.labelLen := rfl

@[simp] theorem State.writeBuf_emLen (s : State) (b : Buf) (o : Nat) (bs : List Byte) :
    (s.writeBuf b o bs).emLen = s.emLen := rfl

@[simp] theorem State.writeBuf_inLen (s : State) (b : Buf) (o : Nat) (bs : List Byte) :
    (s.writeBuf b o bs).inLen = s.inLen := rfl

@[simp] theorem State.writeBuf_maskLen (s : State) (b : Buf) (o : Nat) (bs : List Byte) :
    (s.writeBuf b o bs).maskLen = s.maskLen := rfl

@[simp] theorem State.writeBuf_outLen (s : State) (b : Buf) (o : Nat) (bs : List Byte) :
    (s.writeBuf b o bs).outLen = s.outLen := rfl

@[simp] theorem State.writeBuf_mem (s : State) (b : Buf) (o : Nat) (bs : List Byte) :
    (s.writeBuf b o bs).mem = s.mem.replace (b.base + o) bs := rfl

@[simp] theorem State.writeBuf_inputs (s : State) (b : Buf) (o : Nat) (bs : List Byte) :
    (s.writeBuf b o bs).inputs = s.inputs := rfl

@[simp] theorem State.writeBuf_answer (s : State) (b : Buf) (o : Nat) (bs : List Byte) :
    (s.writeBuf b o bs).answer = s.answer := rfl

@[simp] theorem State.writeBuf_rst (s : State) (b : Buf) (o : Nat) (bs : List Byte) :
    (s.writeBuf b o bs).rst = s.rst := rfl

@[simp] theorem State.writeBuf_draws (s : State) (b : Buf) (o : Nat) (bs : List Byte) :
    (s.writeBuf b o bs).draws = s.draws := rfl

/-! ### `State.countDraw` -/

@[simp] theorem State.countDraw_cfg (s : State) :
    (s.countDraw).cfg = s.cfg := rfl

@[simp] theorem State.countDraw_seq (s : State) :
    (s.countDraw).seq = s.seq := rfl

@[simp] theorem State.countDraw_irqEn (s : State) :
    (s.countDraw).irqEn = s.irqEn := rfl

@[simp] theorem State.countDraw_done (s : State) :
    (s.countDraw).done = s.done := rfl

@[simp] theorem State.countDraw_errCode (s : State) :
    (s.countDraw).errCode = s.errCode := rfl

@[simp] theorem State.countDraw_errDetail (s : State) :
    (s.countDraw).errDetail = s.errDetail := rfl

@[simp] theorem State.countDraw_busyViol (s : State) :
    (s.countDraw).busyViol = s.busyViol := rfl

@[simp] theorem State.countDraw_k (s : State) :
    (s.countDraw).k = s.k := rfl

@[simp] theorem State.countDraw_msgLen (s : State) :
    (s.countDraw).msgLen = s.msgLen := rfl

@[simp] theorem State.countDraw_labelLen (s : State) :
    (s.countDraw).labelLen = s.labelLen := rfl

@[simp] theorem State.countDraw_emLen (s : State) :
    (s.countDraw).emLen = s.emLen := rfl

@[simp] theorem State.countDraw_inLen (s : State) :
    (s.countDraw).inLen = s.inLen := rfl

@[simp] theorem State.countDraw_maskLen (s : State) :
    (s.countDraw).maskLen = s.maskLen := rfl

@[simp] theorem State.countDraw_outLen (s : State) :
    (s.countDraw).outLen = s.outLen := rfl

@[simp] theorem State.countDraw_mem (s : State) :
    (s.countDraw).mem = s.mem := rfl

@[simp] theorem State.countDraw_inputs (s : State) :
    (s.countDraw).inputs = s.inputs := rfl

@[simp] theorem State.countDraw_answer (s : State) :
    (s.countDraw).answer = s.answer := rfl

@[simp] theorem State.countDraw_rst (s : State) :
    (s.countDraw).rst = s.rst := rfl

@[simp] theorem State.countDraw_draws (s : State) :
    (s.countDraw).draws = s.draws + 1 := rfl

/-! ### `State.resetArch` -/

@[simp] theorem State.resetArch_cfg (s : State) :
    (s.resetArch).cfg = s.cfg := rfl

@[simp] theorem State.resetArch_seq (s : State) :
    (s.resetArch).seq = .idle := rfl

@[simp] theorem State.resetArch_irqEn (s : State) :
    (s.resetArch).irqEn = false := rfl

@[simp] theorem State.resetArch_done (s : State) :
    (s.resetArch).done = false := rfl

@[simp] theorem State.resetArch_errCode (s : State) :
    (s.resetArch).errCode = 0 := rfl

@[simp] theorem State.resetArch_errDetail (s : State) :
    (s.resetArch).errDetail = 0 := rfl

@[simp] theorem State.resetArch_busyViol (s : State) :
    (s.resetArch).busyViol = false := rfl

@[simp] theorem State.resetArch_k (s : State) :
    (s.resetArch).k = 0 := rfl

@[simp] theorem State.resetArch_msgLen (s : State) :
    (s.resetArch).msgLen = 0 := rfl

@[simp] theorem State.resetArch_labelLen (s : State) :
    (s.resetArch).labelLen = 0 := rfl

@[simp] theorem State.resetArch_emLen (s : State) :
    (s.resetArch).emLen = 0 := rfl

@[simp] theorem State.resetArch_inLen (s : State) :
    (s.resetArch).inLen = 0 := rfl

@[simp] theorem State.resetArch_maskLen (s : State) :
    (s.resetArch).maskLen = 0 := rfl

@[simp] theorem State.resetArch_outLen (s : State) :
    (s.resetArch).outLen = 0 := rfl

@[simp] theorem State.resetArch_mem (s : State) :
    (s.resetArch).mem = [] := rfl

@[simp] theorem State.resetArch_inputs (s : State) :
    (s.resetArch).inputs = s.inputs := rfl

@[simp] theorem State.resetArch_answer (s : State) :
    (s.resetArch).answer = s.answer := rfl

@[simp] theorem State.resetArch_rst (s : State) :
    (s.resetArch).rst = s.rst := rfl

@[simp] theorem State.resetArch_draws (s : State) :
    (s.resetArch).draws = s.draws := rfl

/-! ### `State.softReset` -/

@[simp] theorem State.softReset_cfg (s : State) :
    (s.softReset).cfg = s.cfg := rfl

@[simp] theorem State.softReset_seq (s : State) :
    (s.softReset).seq = .idle := rfl

@[simp] theorem State.softReset_irqEn (s : State) :
    (s.softReset).irqEn = false := rfl

@[simp] theorem State.softReset_done (s : State) :
    (s.softReset).done = false := rfl

@[simp] theorem State.softReset_errCode (s : State) :
    (s.softReset).errCode = 0 := rfl

@[simp] theorem State.softReset_errDetail (s : State) :
    (s.softReset).errDetail = 0 := rfl

@[simp] theorem State.softReset_busyViol (s : State) :
    (s.softReset).busyViol = false := rfl

@[simp] theorem State.softReset_k (s : State) :
    (s.softReset).k = 0 := rfl

@[simp] theorem State.softReset_msgLen (s : State) :
    (s.softReset).msgLen = 0 := rfl

@[simp] theorem State.softReset_labelLen (s : State) :
    (s.softReset).labelLen = 0 := rfl

@[simp] theorem State.softReset_emLen (s : State) :
    (s.softReset).emLen = 0 := rfl

@[simp] theorem State.softReset_inLen (s : State) :
    (s.softReset).inLen = 0 := rfl

@[simp] theorem State.softReset_maskLen (s : State) :
    (s.softReset).maskLen = 0 := rfl

@[simp] theorem State.softReset_outLen (s : State) :
    (s.softReset).outLen = 0 := rfl

@[simp] theorem State.softReset_mem (s : State) :
    (s.softReset).mem = [] := rfl

@[simp] theorem State.softReset_inputs (s : State) :
    (s.softReset).inputs = s.inputs := rfl

@[simp] theorem State.softReset_answer (s : State) :
    (s.softReset).answer = s.answer := rfl

@[simp] theorem State.softReset_rst (s : State) :
    (s.softReset).rst = s.rst := rfl

@[simp] theorem State.softReset_draws (s : State) :
    (s.softReset).draws = s.draws := rfl

/-! ### `State.driveRst` -/

/-- A move of rst to the level it has is no event. -/
theorem State.driveRst_same {s : State} {l : Bool} (h : s.rst = l) : s.driveRst l = s := if_pos h.symm

/-- An assertion or a release of rst leaves the reset state. -/
theorem State.driveRst_change {s : State} {l : Bool} (h : s.rst ≠ l) :
    s.driveRst l = { s.resetArch with rst := l } := if_neg (Ne.symm h)

@[simp] theorem State.driveRst_cfg (s : State) (l : Bool) : (s.driveRst l).cfg = s.cfg := by
  unfold State.driveRst
  split <;> rfl

@[simp] theorem State.driveRst_inputs (s : State) (l : Bool) : (s.driveRst l).inputs = s.inputs := by
  unfold State.driveRst
  split <;> rfl

@[simp] theorem State.driveRst_answer (s : State) (l : Bool) : (s.driveRst l).answer = s.answer := by
  unfold State.driveRst
  split <;> rfl

@[simp] theorem State.driveRst_rst (s : State) (l : Bool) : (s.driveRst l).rst = l := by
  unfold State.driveRst
  split
  · rename_i h
    exact h.symm
  · rfl

@[simp] theorem State.driveRst_draws (s : State) (l : Bool) : (s.driveRst l).draws = s.draws := by
  unfold State.driveRst
  split <;> rfl

/-! ### `OutPair.setLen` -/

@[simp] theorem OutPair.setLen_cfg (o : OutPair) (v : Word) (s : State) :
    (o.setLen v s).cfg = s.cfg := by cases o <;> rfl

@[simp] theorem OutPair.setLen_seq (o : OutPair) (v : Word) (s : State) :
    (o.setLen v s).seq = s.seq := by cases o <;> rfl

@[simp] theorem OutPair.setLen_irqEn (o : OutPair) (v : Word) (s : State) :
    (o.setLen v s).irqEn = s.irqEn := by cases o <;> rfl

@[simp] theorem OutPair.setLen_done (o : OutPair) (v : Word) (s : State) :
    (o.setLen v s).done = s.done := by cases o <;> rfl

@[simp] theorem OutPair.setLen_errCode (o : OutPair) (v : Word) (s : State) :
    (o.setLen v s).errCode = s.errCode := by cases o <;> rfl

@[simp] theorem OutPair.setLen_errDetail (o : OutPair) (v : Word) (s : State) :
    (o.setLen v s).errDetail = s.errDetail := by cases o <;> rfl

@[simp] theorem OutPair.setLen_busyViol (o : OutPair) (v : Word) (s : State) :
    (o.setLen v s).busyViol = s.busyViol := by cases o <;> rfl

@[simp] theorem OutPair.setLen_k (o : OutPair) (v : Word) (s : State) :
    (o.setLen v s).k = s.k := by cases o <;> rfl

@[simp] theorem OutPair.setLen_labelLen (o : OutPair) (v : Word) (s : State) :
    (o.setLen v s).labelLen = s.labelLen := by cases o <;> rfl

@[simp] theorem OutPair.setLen_inLen (o : OutPair) (v : Word) (s : State) :
    (o.setLen v s).inLen = s.inLen := by cases o <;> rfl

@[simp] theorem OutPair.setLen_maskLen (o : OutPair) (v : Word) (s : State) :
    (o.setLen v s).maskLen = s.maskLen := by cases o <;> rfl

@[simp] theorem OutPair.setLen_mem (o : OutPair) (v : Word) (s : State) :
    (o.setLen v s).mem = s.mem := by cases o <;> rfl

@[simp] theorem OutPair.setLen_inputs (o : OutPair) (v : Word) (s : State) :
    (o.setLen v s).inputs = s.inputs := by cases o <;> rfl

@[simp] theorem OutPair.setLen_answer (o : OutPair) (v : Word) (s : State) :
    (o.setLen v s).answer = s.answer := by cases o <;> rfl

@[simp] theorem OutPair.setLen_rst (o : OutPair) (v : Word) (s : State) :
    (o.setLen v s).rst = s.rst := by cases o <;> rfl

@[simp] theorem OutPair.setLen_draws (o : OutPair) (v : Word) (s : State) :
    (o.setLen v s).draws = s.draws := by cases o <;> rfl

@[simp] theorem OutPair.len_setLen (o : OutPair) (v : Word) (s : State) : o.len (o.setLen v s) = v := by
  cases o <;> rfl

@[simp] theorem OutPair.setLen_em_emLen (v : Word) (s : State) : (OutPair.em.setLen v s).emLen = v := rfl

@[simp] theorem OutPair.setLen_em_msgLen (v : Word) (s : State) : (OutPair.em.setLen v s).msgLen = s.msgLen := rfl

@[simp] theorem OutPair.setLen_em_outLen (v : Word) (s : State) : (OutPair.em.setLen v s).outLen = s.outLen := rfl

@[simp] theorem OutPair.setLen_msg_emLen (v : Word) (s : State) : (OutPair.msg.setLen v s).emLen = s.emLen := rfl

@[simp] theorem OutPair.setLen_msg_msgLen (v : Word) (s : State) : (OutPair.msg.setLen v s).msgLen = v := rfl

@[simp] theorem OutPair.setLen_msg_outLen (v : Word) (s : State) : (OutPair.msg.setLen v s).outLen = s.outLen := rfl

@[simp] theorem OutPair.setLen_out_emLen (v : Word) (s : State) : (OutPair.out.setLen v s).emLen = s.emLen := rfl

@[simp] theorem OutPair.setLen_out_msgLen (v : Word) (s : State) : (OutPair.out.setLen v s).msgLen = s.msgLen := rfl

@[simp] theorem OutPair.setLen_out_outLen (v : Word) (s : State) : (OutPair.out.setLen v s).outLen = v := rfl

/-! ### `State.commit` -/

@[simp] theorem State.commit_cfg (s : State) (o : OutPair) (f : Finish) :
    (s.commit o f).cfg = s.cfg := by cases o <;> rfl

@[simp] theorem State.commit_seq (s : State) (o : OutPair) (f : Finish) :
    (s.commit o f).seq = s.seq := by cases o <;> rfl

@[simp] theorem State.commit_irqEn (s : State) (o : OutPair) (f : Finish) :
    (s.commit o f).irqEn = s.irqEn := by cases o <;> rfl

@[simp] theorem State.commit_done (s : State) (o : OutPair) (f : Finish) :
    (s.commit o f).done = s.done := by cases o <;> rfl

@[simp] theorem State.commit_errCode (s : State) (o : OutPair) (f : Finish) :
    (s.commit o f).errCode = f.errCode := by cases o <;> rfl

@[simp] theorem State.commit_errDetail (s : State) (o : OutPair) (f : Finish) :
    (s.commit o f).errDetail = f.errDetail := by cases o <;> rfl

@[simp] theorem State.commit_busyViol (s : State) (o : OutPair) (f : Finish) :
    (s.commit o f).busyViol = s.busyViol := by cases o <;> rfl

@[simp] theorem State.commit_k (s : State) (o : OutPair) (f : Finish) :
    (s.commit o f).k = s.k := by cases o <;> rfl

@[simp] theorem State.commit_labelLen (s : State) (o : OutPair) (f : Finish) :
    (s.commit o f).labelLen = s.labelLen := by cases o <;> rfl

@[simp] theorem State.commit_inLen (s : State) (o : OutPair) (f : Finish) :
    (s.commit o f).inLen = s.inLen := by cases o <;> rfl

@[simp] theorem State.commit_maskLen (s : State) (o : OutPair) (f : Finish) :
    (s.commit o f).maskLen = s.maskLen := by cases o <;> rfl

@[simp] theorem State.commit_mem (s : State) (o : OutPair) (f : Finish) :
    (s.commit o f).mem = s.mem.replace o.buf.base (f.result ++ zeros (o.buf.cap s.cfg.params - f.result.length)) := by cases o <;> rfl

@[simp] theorem State.commit_inputs (s : State) (o : OutPair) (f : Finish) :
    (s.commit o f).inputs = s.inputs := by cases o <;> rfl

@[simp] theorem State.commit_answer (s : State) (o : OutPair) (f : Finish) :
    (s.commit o f).answer = s.answer := by cases o <;> rfl

@[simp] theorem State.commit_rst (s : State) (o : OutPair) (f : Finish) :
    (s.commit o f).rst = s.rst := by cases o <;> rfl

@[simp] theorem State.commit_draws (s : State) (o : OutPair) (f : Finish) :
    (s.commit o f).draws = s.draws := by cases o <;> rfl

@[simp] theorem OutPair.len_commit (s : State) (o : OutPair) (f : Finish) :
    o.len (s.commit o f) = BitVec.ofNat 32 f.result.length := by cases o <;> rfl

/-! ### `State.complete` -/

@[simp] theorem State.complete_cfg (s : State) (o : OutPair) (f : Finish) :
    (s.complete o f).cfg = s.cfg := by cases o <;> rfl

@[simp] theorem State.complete_seq (s : State) (o : OutPair) (f : Finish) :
    (s.complete o f).seq = .idle := by cases o <;> rfl

@[simp] theorem State.complete_irqEn (s : State) (o : OutPair) (f : Finish) :
    (s.complete o f).irqEn = s.irqEn := by cases o <;> rfl

@[simp] theorem State.complete_done (s : State) (o : OutPair) (f : Finish) :
    (s.complete o f).done = true := by cases o <;> rfl

@[simp] theorem State.complete_errCode (s : State) (o : OutPair) (f : Finish) :
    (s.complete o f).errCode = f.errCode := by cases o <;> rfl

@[simp] theorem State.complete_errDetail (s : State) (o : OutPair) (f : Finish) :
    (s.complete o f).errDetail = f.errDetail := by cases o <;> rfl

@[simp] theorem State.complete_busyViol (s : State) (o : OutPair) (f : Finish) :
    (s.complete o f).busyViol = s.busyViol := by cases o <;> rfl

@[simp] theorem State.complete_k (s : State) (o : OutPair) (f : Finish) :
    (s.complete o f).k = s.k := by cases o <;> rfl

@[simp] theorem State.complete_labelLen (s : State) (o : OutPair) (f : Finish) :
    (s.complete o f).labelLen = s.labelLen := by cases o <;> rfl

@[simp] theorem State.complete_inLen (s : State) (o : OutPair) (f : Finish) :
    (s.complete o f).inLen = s.inLen := by cases o <;> rfl

@[simp] theorem State.complete_maskLen (s : State) (o : OutPair) (f : Finish) :
    (s.complete o f).maskLen = s.maskLen := by cases o <;> rfl

@[simp] theorem State.complete_mem (s : State) (o : OutPair) (f : Finish) :
    (s.complete o f).mem = s.mem.replace o.buf.base (f.result ++ zeros (o.buf.cap s.cfg.params - f.result.length)) := by cases o <;> rfl

@[simp] theorem State.complete_inputs (s : State) (o : OutPair) (f : Finish) :
    (s.complete o f).inputs = s.inputs := by cases o <;> rfl

@[simp] theorem State.complete_answer (s : State) (o : OutPair) (f : Finish) :
    (s.complete o f).answer = s.answer := by cases o <;> rfl

@[simp] theorem State.complete_rst (s : State) (o : OutPair) (f : Finish) :
    (s.complete o f).rst = s.rst := by cases o <;> rfl

@[simp] theorem State.complete_draws (s : State) (o : OutPair) (f : Finish) :
    (s.complete o f).draws = s.draws := by cases o <;> rfl

@[simp] theorem OutPair.len_complete (s : State) (o : OutPair) (f : Finish) :
    o.len (s.complete o f) = BitVec.ofNat 32 f.result.length := by cases o <;> rfl

@[simp] theorem State.complete_em_emLen (s : State) (f : Finish) :
    (s.complete .em f).emLen = BitVec.ofNat 32 f.result.length := rfl

@[simp] theorem State.complete_em_msgLen (s : State) (f : Finish) :
    (s.complete .em f).msgLen = s.msgLen := rfl

@[simp] theorem State.complete_em_outLen (s : State) (f : Finish) :
    (s.complete .em f).outLen = s.outLen := rfl

@[simp] theorem State.complete_msg_emLen (s : State) (f : Finish) :
    (s.complete .msg f).emLen = s.emLen := rfl

@[simp] theorem State.complete_msg_msgLen (s : State) (f : Finish) :
    (s.complete .msg f).msgLen = BitVec.ofNat 32 f.result.length := rfl

@[simp] theorem State.complete_msg_outLen (s : State) (f : Finish) :
    (s.complete .msg f).outLen = s.outLen := rfl

@[simp] theorem State.complete_out_emLen (s : State) (f : Finish) :
    (s.complete .out f).emLen = s.emLen := rfl

@[simp] theorem State.complete_out_msgLen (s : State) (f : Finish) :
    (s.complete .out f).msgLen = s.msgLen := rfl

@[simp] theorem State.complete_out_outLen (s : State) (f : Finish) :
    (s.complete .out f).outLen = BitVec.ofNat 32 f.result.length := rfl

/-! ### `State.afterSeed` -/

@[simp] theorem State.afterSeed_cfg (s : State) (src : SeedSrc) :
    (s.afterSeed src).cfg = s.cfg := by cases src <;> rfl

@[simp] theorem State.afterSeed_seq (s : State) (src : SeedSrc) :
    (s.afterSeed src).seq = s.seq := by cases src <;> rfl

@[simp] theorem State.afterSeed_irqEn (s : State) (src : SeedSrc) :
    (s.afterSeed src).irqEn = s.irqEn := by cases src <;> rfl

@[simp] theorem State.afterSeed_done (s : State) (src : SeedSrc) :
    (s.afterSeed src).done = s.done := by cases src <;> rfl

@[simp] theorem State.afterSeed_errCode (s : State) (src : SeedSrc) :
    (s.afterSeed src).errCode = s.errCode := by cases src <;> rfl

@[simp] theorem State.afterSeed_errDetail (s : State) (src : SeedSrc) :
    (s.afterSeed src).errDetail = s.errDetail := by cases src <;> rfl

@[simp] theorem State.afterSeed_busyViol (s : State) (src : SeedSrc) :
    (s.afterSeed src).busyViol = s.busyViol := by cases src <;> rfl

@[simp] theorem State.afterSeed_k (s : State) (src : SeedSrc) :
    (s.afterSeed src).k = s.k := by cases src <;> rfl

@[simp] theorem State.afterSeed_msgLen (s : State) (src : SeedSrc) :
    (s.afterSeed src).msgLen = s.msgLen := by cases src <;> rfl

@[simp] theorem State.afterSeed_labelLen (s : State) (src : SeedSrc) :
    (s.afterSeed src).labelLen = s.labelLen := by cases src <;> rfl

@[simp] theorem State.afterSeed_emLen (s : State) (src : SeedSrc) :
    (s.afterSeed src).emLen = s.emLen := by cases src <;> rfl

@[simp] theorem State.afterSeed_inLen (s : State) (src : SeedSrc) :
    (s.afterSeed src).inLen = s.inLen := by cases src <;> rfl

@[simp] theorem State.afterSeed_maskLen (s : State) (src : SeedSrc) :
    (s.afterSeed src).maskLen = s.maskLen := by cases src <;> rfl

@[simp] theorem State.afterSeed_outLen (s : State) (src : SeedSrc) :
    (s.afterSeed src).outLen = s.outLen := by cases src <;> rfl

@[simp] theorem State.afterSeed_mem (s : State) (src : SeedSrc) :
    (s.afterSeed src).mem = s.mem := by cases src <;> rfl

@[simp] theorem State.afterSeed_inputs (s : State) (src : SeedSrc) :
    (s.afterSeed src).inputs = s.inputs := by cases src <;> rfl

@[simp] theorem State.afterSeed_answer (s : State) (src : SeedSrc) :
    (s.afterSeed src).answer = s.answer := by cases src <;> rfl

@[simp] theorem State.afterSeed_rst (s : State) (src : SeedSrc) :
    (s.afterSeed src).rst = s.rst := by cases src <;> rfl

@[simp] theorem State.afterSeed_fresh_draws (s : State) : (s.afterSeed .fresh).draws = s.draws + 1 := rfl

@[simp] theorem State.afterSeed_seedBuf (s : State) : s.afterSeed .seedBuf = s := rfl

/-! ### `State.busy` -/

@[simp] theorem State.busy_eq_true (s : State) : s.busy = true ↔ ∃ i, s.seq = .busy i := by
  unfold State.busy; cases s.seq <;> simp

@[simp] theorem State.busy_eq_false (s : State) : s.busy = false ↔ s.seq = .idle := by
  unfold State.busy; cases s.seq <;> simp

end Sys2Proof.Machine
end

