-- ==== Sys2Proof/Laws/Ops.lean ====
section
/-! SUPPORT. What the shared operations can do: acceptance, the commit as reads see it, and the one form that the
completion of every command has. -/

namespace Sys2Proof.Machine

/-! ### Buffers and the address map -/

/-- Every buffer fits its 4 KiB window (R83). -/
theorem cap_le (c : Cfg) (b : Buf) : b.cap c.params ≤ 4096 := by
  have := (Params.wellFormed_iff _).1 c.ok
  cases b <;> simp only [Buf.cap] <;> omega

/-- A buffer byte belongs to one buffer only. -/
theorem base_disjoint {c : Cfg} {b b' : Buf} (h : b ≠ b') :
    b.base + b.cap c.params ≤ b'.base ∨ b'.base + 4096 ≤ b.base := by
  have := cap_le c b
  cases b <;> cases b' <;> simp only [Buf.base] at * <;> first | exact absurd rfl h | omega

/-! ### Acceptance -/

theorem acceptCommand_legal {s : State} {v : Word} {i : Instr} (h : decodeCmd v = .legal i) :
    s.acceptCommand v = { s with done := false, errCode := 0, errDetail := 0, seq := .busy i } := by
  simp only [State.acceptCommand, h]; rfl

theorem acceptCommand_illegal {s : State} {v : Word} {r : IllegalReason} (h : decodeCmd v = .illegal r) :
    s.acceptCommand v = { s with done := true, errCode := illegalCommand, errDetail := r.detail } := by
  simp only [State.acceptCommand, h]; rfl

/-! ### Completion as reads see it -/

/-- Bytes written by a completion: as many as the output buffer holds. -/
theorem complete_string_length {s : State} {o : OutPair} {f : Finish}
    (h : f.result.length ≤ o.buf.cap s.cfg.params) :
    (f.result ++ zeros (o.buf.cap s.cfg.params - f.result.length)).length = o.buf.cap s.cfg.params := by
  simp; omega

/-- A completion changes no byte outside its output buffer (R116, R217). -/
theorem read_complete_outside {s : State} {o : OutPair} {f : Finish} {a : Nat}
    (hf : f.result.length ≤ o.buf.cap s.cfg.params)
    (h : a < o.buf.base ∨ o.buf.base + o.buf.cap s.cfg.params ≤ a) :
    (s.complete o f).mem.read a = s.mem.read a := by
  rw [State.complete_mem]
  exact Memory.read_replace_outside (by rw [complete_string_length hf]; exact h)

/-- The result stands at the start of the output buffer (R217). -/
theorem slice_complete {s : State} {o : OutPair} {f : Finish} :
    (s.complete o f).slice o.buf f.result.length = f.result := by
  rw [State.slice, State.complete_mem, Memory.readBytes_replace _ _ _ (by simp)]
  simp

/-- The rest of the output buffer is 0x00 (R217, R218). -/
theorem read_complete_tail {s : State} {o : OutPair} {f : Finish} {i : Nat}
    (h : f.result.length ≤ i) (hi : i < o.buf.cap s.cfg.params) :
    (s.complete o f).mem.read (o.buf.base + i) = 0 := by
  rw [State.complete_mem, Memory.read_replace_inside (by simp; omega)]
  rw [List.getD_append_right _ _ _ _ h, getD_zeros]

/-- A slice of another buffer is as before. -/
theorem slice_complete_other {s : State} {o : OutPair} {f : Finish} {b : Buf} {n : Nat}
    (hf : f.result.length ≤ o.buf.cap s.cfg.params) (hb : b ≠ o.buf) (hn : n ≤ 4096) :
    (s.complete o f).slice b n = s.slice b n := by
  refine Memory.readBytes_congr fun i hi => read_complete_outside hf ?_
  rcases base_disjoint (c := s.cfg) hb.symm with h | h <;> omega

/-! ### The canonical form of memory -/

theorem wf_resetWith (c : Cfg) : (State.resetWith c).mem.wf = true := rfl

theorem wf_reset : State.reset.mem.wf = true := rfl

theorem wf_writeBuf {s : State} (h : s.mem.wf = true) (b : Buf) (o : Nat) (bs : List Byte) :
    (s.writeBuf b o bs).mem.wf = true := Memory.wf_replace h _ _

theorem wf_complete {s : State} (h : s.mem.wf = true) (o : OutPair) (f : Finish) :
    (s.complete o f).mem.wf = true := by
  rw [State.complete_mem]
  exact Memory.wf_replace h _ _

/-! ### The one form of every completion -/

/-- The output pair of a command (R217). -/
def outPairOf : Instr → OutPair
  | .encode _ => .em
  | .decode => .msg
  | .mgf1 => .out
  | .hash => .out

/-- How a command finishes on a state (R216). -/
def finishOf : Instr → State → Finish
  | .encode src, s => s.encodeCmd src
  | .decode, s => s.decodeCmd
  | .mgf1, s => s.mgf1Cmd
  | .hash, s => s.hashCmd

/-- The state a command commits to: with one draw more for a fresh seed (R133). -/
def beforeCommit : Instr → State → State
  | .encode src, s => s.afterSeed src
  | .decode, s => s
  | .mgf1, s => s
  | .hash, s => s

/-- Every command completes: it commits its finish to its output pair (R216). -/
theorem exec_eq (i : Instr) (s : State) :
    exec i s = .next ((beforeCommit i s).complete (outPairOf i) (finishOf i s)) := by
  cases i <;> rfl

theorem beforeCommit_eq (i : Instr) (s : State) :
    beforeCommit i s = { s with draws := (beforeCommit i s).draws } := by
  cases i with
  | encode src => cases src <;> rfl
  | decode => rfl
  | mgf1 => rfl
  | hash => rfl

end Sys2Proof.Machine
end

