-- ==== Sys2Proof/Laws/Bus.lean ====
section
/-! SUPPORT. What one transaction can do: the address map read both ways, and the reads and writes by region. -/

namespace Sys2Proof.Machine

/-! ### The address map -/

theorem RegName.offset_lt (r : RegName) : r.offset < 0x1000 := by cases r <;> decide

theorem RegName.offset_aligned (r : RegName) : r.offset % 4 = 0 := by cases r <;> rfl

theorem RegName.atOffset_offset (r : RegName) : RegName.atOffset r.offset = some r := by
  cases r <;> rfl

theorem locate_reg (p : Params) (r : RegName) : locate p r.offset = .reg r := by
  simp [locate, r.offset_lt, r.atOffset_offset]

theorem Buf.atOffset_window {b : Buf} {o : Nat} (h : o < 0x1000) : Buf.atOffset (b.base + o) = some b := by
  cases hf : Buf.atOffset (b.base + o) with
  | none =>
    have := List.find?_eq_none.1 hf b (by cases b <;> decide)
    simp only [Bool.and_eq_true, decide_eq_true_eq] at this
    omega
  | some b' =>
    have := List.find?_some hf
    simp only [Bool.and_eq_true, decide_eq_true_eq] at this
    cases b <;> cases b' <;> first | rfl | (simp only [Buf.base] at this; omega)

theorem Buf.le_base (b : Buf) : 0x1000 ≤ b.base := by cases b <;> decide

theorem Buf.base_le (b : Buf) : b.base ≤ 0x6000 := by cases b <;> decide

theorem Buf.base_aligned (b : Buf) : b.base % 4096 = 0 := by cases b <;> rfl

theorem locate_window (c : Cfg) {b : Buf} {o : Nat} (h : o < b.cap c.params) :
    locate c.params (b.base + o) = .window b o := by
  have := cap_le c b
  have := b.le_base
  rw [locate, if_neg (by omega), Buf.atOffset_window (by omega)]
  simp [h]

theorem locate_eq_reg {p : Params} {off : Nat} {r : RegName} (h : locate p off = .reg r) :
    off = r.offset := by
  unfold locate at h
  split at h
  · split at h
    · rename_i r' hr
      obtain rfl : r' = r := by simpa using h
      have := List.find?_some hr
      simpa using (of_decide_eq_true this).symm
    · exact absurd h (by simp)
  · split at h
    · split at h <;> exact absurd h (by simp)
    · exact absurd h (by simp)

theorem locate_eq_window {p : Params} {off : Nat} {b : Buf} {o : Nat} (h : locate p off = .window b o) :
    off = b.base + o ∧ o < b.cap p := by
  unfold locate at h
  split at h
  · split at h <;> exact absurd h (by simp)
  · split at h
    · rename_i b' hb
      split at h
      · rename_i hc
        have hp := List.find?_some hb
        simp only [Bool.and_eq_true, decide_eq_true_eq] at hp
        simp only [Region.window.injEq] at h
        obtain ⟨rfl, rfl⟩ := h
        exact ⟨by omega, hc⟩
      · exact absurd h (by simp)
    · exact absurd h (by simp)

/-! ### Transactions of the host assembly -/

theorem readOf_supported {off : Nat} (h : off % 4 = 0) (h' : off < 0x10000) :
    (readOf off).supported = true ∧ (readOf off).off.toNat = off := by
  have : (readOf off).off.toNat = off := by
    simp only [readOf, BitVec.toNat_ofNat]; exact Nat.mod_eq_of_lt h'
  simp [Transaction.supported, this, h]; rfl

theorem writeOf_supported {off : Nat} (v : Word) (h : off % 4 = 0) (h' : off < 0x10000) :
    (writeOf off v).supported = true ∧ (writeOf off v).off.toNat = off := by
  have : (writeOf off v).off.toNat = off := by
    simp only [writeOf, BitVec.toNat_ofNat]; exact Nat.mod_eq_of_lt h'
  simp [Transaction.supported, this, h]; rfl

theorem serve_readOf {s : State} {off : Nat} (h : off % 4 = 0) (h' : off < 0x10000) :
    s.serve (readOf off) = s.memRead off := by
  obtain ⟨h1, h2⟩ := readOf_supported h h'
  rw [State.serve, if_pos h1, h2]; rfl

theorem serve_writeOf {s : State} {off : Nat} {v : Word} (h : off % 4 = 0) (h' : off < 0x10000) :
    s.serve (writeOf off v) = s.memWrite off v := by
  obtain ⟨h1, h2⟩ := writeOf_supported v h h'
  rw [State.serve, if_pos h1, h2]; rfl

theorem serve_read_reg (s : State) (r : RegName) :
    s.serve (readOf r.offset) = { s with answer := some (.read (s.readReg r)) } := by
  have := r.offset_lt
  rw [serve_readOf r.offset_aligned (by omega), State.memRead, locate_reg]

theorem serve_write_reg (s : State) (r : RegName) (v : Word) :
    s.serve (writeOf r.offset v) = { s.writeReg r v with answer := some .written } := by
  have := r.offset_lt
  rw [serve_writeOf r.offset_aligned (by omega), State.memWrite, locate_reg]

theorem window_offset_lt (c : Cfg) {b : Buf} {o : Nat} (h : o < b.cap c.params) :
    b.base + o < 0x10000 := by
  have := cap_le c b; have := b.base_le; omega

theorem serve_write_window {s : State} {b : Buf} {o : Nat} (v : Word) (h : o < b.cap s.cfg.params)
    (ho : o % 4 = 0) :
    s.serve (writeOf (b.base + o) v) = { s.writeWindow b o v with answer := some .written } := by
  have := b.base_aligned
  rw [serve_writeOf (by omega) (window_offset_lt s.cfg h), State.memWrite, locate_window s.cfg h]

theorem serve_read_window {s : State} {b : Buf} {o : Nat} (h : o < b.cap s.cfg.params)
    (ho : o % 4 = 0) :
    s.serve (readOf (b.base + o)) =
      if s.busy then { s.countDraw with answer := some (.read (Config.freeWord s.draws)) }
      else { s with answer := some (.read (s.windowWord b o)) } := by
  have := b.base_aligned
  rw [serve_readOf (by omega) (window_offset_lt s.cfg h), State.memRead, locate_window s.cfg h]

/-! ### What a transaction can do -/

/-- A read changes the answer and, by a draw of a buffer while BUSY, the count of draws; nothing else (R93, R99). -/
theorem memRead_eq (s : State) (off : Nat) :
    ∃ a n, s.memRead off = { s with answer := some a, draws := n } ∧ s.draws ≤ n := by
  unfold State.memRead
  split
  · exact ⟨_, s.draws, rfl, le_rfl⟩
  · split
    · exact ⟨_, s.draws + 1, rfl, by omega⟩
    · exact ⟨_, s.draws, rfl, le_rfl⟩
  · exact ⟨_, s.draws, rfl, le_rfl⟩

/-- What a write can do to an IDLE machine, by region (R90). -/
theorem memWrite_cases (s : State) (off : Nat) (v : Word) :
    s.memWrite off v = { s with answer := some .err } ∨
    (∃ r, off = r.offset ∧ s.memWrite off v = { s.writeReg r v with answer := some .written }) ∨
    (∃ b o, off = b.base + o ∧ o < b.cap s.cfg.params ∧
      s.memWrite off v = { s.writeWindow b o v with answer := some .written }) := by
  unfold State.memWrite
  split
  · rename_i r hr; exact .inr (.inl ⟨r, locate_eq_reg hr, rfl⟩)
  · rename_i b o hw
    obtain ⟨h1, h2⟩ := locate_eq_window hw
    exact .inr (.inr ⟨b, o, h1, h2, rfl⟩)
  · exact .inl rfl

/-- While BUSY a register write changes at most IRQ_EN, DONE and BUSY_VIOL, or is a soft reset (R247). -/
theorem writeReg_busy {s : State} (h : s.busy = true) (r : RegName) (v : Word) :
    (r = .ctrl ∧ v.getLsbD 1 = true ∧ s.writeReg r v = s.softReset) ∨
    ∃ e d f, s.writeReg r v = { s with irqEn := e, done := d, busyViol := f } := by
  cases r <;> simp only [State.writeReg, State.unlessBusy, h, if_true]
  case ctrl =>
    cases hv : v.getLsbD 1
    · exact .inr ⟨v.getLsbD 0, s.done, s.busyViol, by simp⟩
    · exact .inl ⟨trivial, rfl, by simp⟩
  case status => exact .inr ⟨s.irqEn, _, _, rfl⟩
  all_goals first
    | exact .inr ⟨s.irqEn, s.done, s.busyViol, rfl⟩
    | exact .inr ⟨s.irqEn, s.done, true, rfl⟩

/-- A window write while BUSY is dropped (R98); to OUT_BUF it is ignored (R65). -/
theorem writeWindow_busy {s : State} (h : s.busy = true) (b : Buf) (o : Nat) (v : Word) :
    s.writeWindow b o v = if b.hostWritable then s.violate else s := by
  simp [State.writeWindow, State.unlessBusy, h]

theorem busy_of_ne_idle {s : State} (h : s.seq ≠ .idle) : s.busy = true := by
  unfold State.busy
  cases hs : s.seq <;> simp_all

theorem not_busy_of_idle {s : State} (h : s.seq = .idle) : s.busy = false := by simp [State.busy, h]

/-- While BUSY a transaction that is no soft reset changes nothing but IRQ_EN, DONE, BUSY_VIOL and the model's own
answer and count of draws (R247). -/
theorem serve_busy {s : State} (hb : s.busy = true) {t : Transaction}
    (hn : t.kind = .write → t.off.toNat = RegName.ctrl.offset → t.wdata.getLsbD 1 = true → t.supported = false) :
    ∃ e d f a n, s.draws ≤ n ∧
      s.serve t = { s with irqEn := e, done := d, busyViol := f, answer := a, draws := n } := by
  unfold State.serve
  split
  · rename_i hsup
    split
    · obtain ⟨a, n, h, hn⟩ := memRead_eq s t.off.toNat
      exact ⟨s.irqEn, s.done, s.busyViol, some a, n, hn, h⟩
    · rename_i hk
      rcases memWrite_cases s t.off.toNat t.wdata with h | ⟨r, hr, h⟩ | ⟨b, o, -, -, h⟩
      · exact ⟨s.irqEn, s.done, s.busyViol, _, s.draws, le_rfl, h⟩
      · rcases writeReg_busy hb r t.wdata with ⟨rfl, h2, -⟩ | ⟨e, d, f, h3⟩
        · exact absurd (hn hk hr h2) (by simp [hsup])
        · exact ⟨e, d, f, _, s.draws, le_rfl, by rw [h, h3]⟩
      · rw [h, writeWindow_busy hb]
        split
        · exact ⟨s.irqEn, s.done, true, _, s.draws, le_rfl, rfl⟩
        · exact ⟨s.irqEn, s.done, s.busyViol, _, s.draws, le_rfl, rfl⟩
  · exact ⟨s.irqEn, s.done, s.busyViol, _, s.draws, le_rfl, rfl⟩

/-- No register write changes the instance, the environment's moves, the answer, rst or the count of draws. -/
theorem writeReg_kept (s : State) (r : RegName) (v : Word) :
    (s.writeReg r v).cfg = s.cfg ∧ (s.writeReg r v).inputs = s.inputs ∧ (s.writeReg r v).answer = s.answer ∧
      (s.writeReg r v).rst = s.rst ∧ (s.writeReg r v).draws = s.draws := by
  have hb : ∀ u : State, u.cfg = s.cfg ∧ u.inputs = s.inputs ∧ u.answer = s.answer ∧ u.rst = s.rst ∧
      u.draws = s.draws → (s.unlessBusy u).cfg = s.cfg ∧ (s.unlessBusy u).inputs = s.inputs ∧
        (s.unlessBusy u).answer = s.answer ∧ (s.unlessBusy u).rst = s.rst ∧ (s.unlessBusy u).draws = s.draws := by
    intro u hu
    unfold State.unlessBusy
    split
    · exact ⟨rfl, rfl, rfl, rfl, rfl⟩
    · exact hu
  cases r <;> simp only [State.writeReg]
  case ctrl => split <;> exact ⟨rfl, rfl, rfl, rfl, rfl⟩
  case cmd =>
    apply hb
    cases hd : decodeCmd v with
    | legal i => rw [acceptCommand_legal hd]; exact ⟨rfl, rfl, rfl, rfl, rfl⟩
    | illegal x => rw [acceptCommand_illegal hd]; exact ⟨rfl, rfl, rfl, rfl, rfl⟩
  all_goals first
    | exact ⟨trivial, trivial, trivial, trivial, trivial⟩
    | exact ⟨rfl, rfl, rfl, rfl, rfl⟩
    | (apply hb; exact ⟨rfl, rfl, rfl, rfl, rfl⟩)

/-- A window write changes at most memory and BUSY_VIOL. -/
theorem writeWindow_kept (s : State) (b : Buf) (o : Nat) (v : Word) :
    ∃ m f, s.writeWindow b o v = { s with mem := m, busyViol := f } := by
  unfold State.writeWindow State.unlessBusy
  split
  · split
    · exact ⟨s.mem, true, rfl⟩
    · exact ⟨_, s.busyViol, rfl⟩
  · exact ⟨s.mem, s.busyViol, rfl⟩

/-- Every memory operation of the port keeps the canonical form. -/
theorem wf_writeWindow {s : State} (h : s.mem.wf = true) (b : Buf) (o : Nat) (v : Word) :
    (s.writeWindow b o v).mem.wf = true := by
  unfold State.writeWindow State.unlessBusy
  split
  · split
    · exact h
    · exact wf_writeBuf h _ _ _
  · exact h

end Sys2Proof.Machine
end

