-- ==== Sys2Proof/Laws/Transforms.lean ====
section
/-! SUPPORT. The encoder's and the decoder's transforms: lengths, what the checks bound, and unmasking undone. -/

namespace Sys2Proof.Machine

/-! ### Checks: what holds when none fails -/

/-- No check fails exactly when each one passes. -/
theorem firstFailing_eq_none {l : List (Bool × LengthDetail)} :
    firstFailing l = none ↔ ∀ e ∈ l, e.1 = false := by
  induction l with
  | nil => simp [firstFailing]
  | cons e t ih => cases h : e.1 <;> simp [firstFailing, h, ih]

theorem encodeChecks_eq_none (s : State) : s.encodeChecks = none ↔
    s.k.toNat ≤ s.cfg.params.kMax ∧ s.msgLen.toNat + 2 * s.cfg.params.hLen + 2 ≤ s.k.toNat ∧
      s.labelLen.toNat ≤ s.cfg.params.lMax := by
  have hw := (Params.wellFormed_iff _).1 s.cfg.ok
  simp only [State.encodeChecks, firstFailing_eq_none, List.forall_mem_cons, List.not_mem_nil,
    false_imp_iff, implies_true, and_true, decide_eq_false_iff_not]
  omega

theorem decodeChecks_eq_none (s : State) : s.decodeChecks = none ↔
    s.k.toNat ≤ s.cfg.params.kMax ∧ s.emLen = s.k ∧ 2 * s.cfg.params.hLen + 2 ≤ s.k.toNat ∧
      s.labelLen.toNat ≤ s.cfg.params.lMax := by
  have hw := (Params.wellFormed_iff _).1 s.cfg.ok
  simp only [State.decodeChecks, firstFailing_eq_none, List.forall_mem_cons, List.not_mem_nil,
    false_imp_iff, implies_true, and_true, decide_eq_false_iff_not, not_not]
  by_cases h : s.emLen = s.k <;> simp only [h, true_and, false_and, and_false]
  omega

theorem mgf1Checks_eq_none (s : State) : s.mgf1Checks = none ↔
    s.inLen.toNat ≤ s.cfg.params.inMax ∧ s.maskLen.toNat ≤ s.cfg.params.outMax := by
  have hw := (Params.wellFormed_iff _).1 s.cfg.ok
  have hm := s.maskLen.isLt
  simp only [State.mgf1Checks, firstFailing_eq_none, List.forall_mem_cons, List.not_mem_nil,
    false_imp_iff, implies_true, and_true, decide_eq_false_iff_not, Bool.and_eq_false_iff]
  omega

theorem hashChecks_eq_none (s : State) : s.hashChecks = none ↔
    s.inLen.toNat ≤ s.cfg.params.inMax := by
  have hw := (Params.wellFormed_iff _).1 s.cfg.ok
  simp only [State.hashChecks, firstFailing_eq_none, List.forall_mem_cons, List.not_mem_nil,
    false_imp_iff, implies_true, and_true, decide_eq_false_iff_not]
  omega

/-! ### Lengths -/

theorem length_dataBlock (c : Cfg) {k : Nat} {msg lab : List Byte}
    (h : msg.length + 2 * c.params.hLen + 2 ≤ k) :
    (dataBlock c.params k msg lab).length = k - c.params.hLen - 1 := by
  simp [dataBlock, length_hash]; omega

theorem length_maskBlock (c : Cfg) {k : Nat} {db seed : List Byte}
    (hdb : db.length = k - c.params.hLen - 1) (hs : seed.length = c.params.hLen)
    (hk : c.params.hLen + 1 ≤ k) : (maskBlock c.params k db seed).length = k := by
  simp [maskBlock, length_mgfMask, hdb, hs]; omega

theorem length_encodeTransform (c : Cfg) {k : Nat} {msg lab seed : List Byte}
    (h : msg.length + 2 * c.params.hLen + 2 ≤ k) (hs : seed.length = c.params.hLen) :
    (encodeTransform c.params k msg lab seed).length = k :=
  length_maskBlock c (length_dataBlock c h) hs (by omega)

@[simp] theorem length_drawRng (d n : Nat) : (drawRng d n).length = n := by simp [drawRng]

@[simp] theorem length_slice (s : State) (b : Buf) (n : Nat) : (s.slice b n).length = n :=
  Memory.length_readBytes _ _ _

@[simp] theorem length_encodeSeed (s : State) (src : SeedSrc) :
    (s.encodeSeed src).length = s.cfg.params.hLen := by cases src <;> simp [State.encodeSeed]

@[simp] theorem length_message (s : State) : s.message.length = s.msgLen.toNat := length_slice _ _ _

@[simp] theorem length_label (s : State) : s.label.length = s.labelLen.toNat := length_slice _ _ _

@[simp] theorem length_emInput (s : State) : s.emInput.length = s.k.toNat := length_slice _ _ _

@[simp] theorem length_inputString (s : State) : s.inputString.length = s.inLen.toNat :=
  length_slice _ _ _

theorem length_unmask (c : Cfg) {k : Nat} {em : List Byte} (h : em.length = k) :
    (unmask c.params k em).length = k - c.params.hLen - 1 := by
  simp [unmask, sliceOf, length_mgfMask, h]; omega

theorem length_extractMessage_le (p : Params) (db : List Byte) :
    (extractMessage p db).length ≤ db.length := by
  unfold extractMessage
  split <;> simp

/-! ### The separator scan (R186) -/

/-- `j` is the separator index exactly when it is the least index from H_LEN on of a non-zero byte. -/
theorem separator_eq_some {p : Params} {db : List Byte} {j : Nat} :
    separator p db = some j ↔ p.hLen ≤ j ∧ (∃ b, db[j]? = some b ∧ b ≠ 0) ∧
      ∀ i, p.hLen ≤ i → i < j → db[i]? = some 0x00 := by
  unfold separator
  rw [Option.map_eq_some_iff]
  constructor
  · rintro ⟨a, ha, rfl⟩
    rw [List.findIdx?_eq_some_iff_getElem] at ha
    obtain ⟨h1, h2, h3⟩ := ha
    refine ⟨by omega, ⟨(db.drop p.hLen)[a], ?_, by simpa using h2⟩, fun i hi hij => ?_⟩
    · simp [Nat.add_comm] at *
    · have := h3 (i - p.hLen) (by omega)
      simp only [List.getElem_drop, show p.hLen + (i - p.hLen) = i by omega, decide_not,
        Bool.not_eq_true', decide_eq_false_iff_not, not_not] at this
      have hlen : i < db.length := by simp at h1; omega
      rw [List.getElem?_eq_getElem hlen]
      simpa using this
  · rintro ⟨h1, ⟨b, hb, hb0⟩, h3⟩
    refine ⟨j - p.hLen, ?_, by omega⟩
    rw [List.findIdx?_eq_some_iff_getElem]
    obtain ⟨hj, rfl⟩ := List.getElem?_eq_some_iff.1 hb
    refine ⟨by simp; omega, by simpa [show p.hLen + (j - p.hLen) = j by omega] using hb0, fun i hi => ?_⟩
    have := h3 (p.hLen + i) (by omega) (by omega)
    obtain ⟨hx, hy⟩ := List.getElem?_eq_some_iff.1 this
    simpa using hy

/-! ### Unmasking undone -/

/-- Unmasking a masked block gives it back (R193's derivation). -/
theorem unmask_maskBlock (c : Cfg) {k : Nat} {db seed : List Byte}
    (hdb : db.length = k - c.params.hLen - 1) (hs : seed.length = c.params.hLen)
    (hk : c.params.hLen + 1 ≤ k) : unmask c.params k (maskBlock c.params k db seed) = db := by
  have hl := length_maskBlock c hdb hs hk
  have e1 : sliceOf (maskBlock c.params k db seed) 1 (1 + c.params.hLen) =
      xorBytes seed (mgfMask c.params (xorBytes db (mgfMask c.params seed (k - c.params.hLen - 1)))
        c.params.hLen) := by
    simp only [sliceOf, maskBlock, List.cons_append, List.nil_append, Nat.add_comm 1]
    rw [List.take_succ_cons, List.drop_succ_cons, List.drop_zero]
    exact List.take_left' (by simp [length_mgfMask, hs])
  have e2 : sliceOf (maskBlock c.params k db seed) (1 + c.params.hLen) k =
      xorBytes db (mgfMask c.params seed (k - c.params.hLen - 1)) := by
    rw [sliceOf, List.take_of_length_le (by omega)]
    simp only [maskBlock, List.cons_append, List.nil_append, Nat.add_comm 1]
    rw [List.drop_succ_cons]
    exact List.drop_left' (by simp [length_mgfMask, hs])
  simp only [unmask, e1, e2]
  rw [xorBytes_cancel (by simp [length_mgfMask, hs]), xorBytes_cancel (by simp [length_mgfMask, hdb])]

theorem headD_maskBlock (p : Params) (k : Nat) (db seed : List Byte) :
    (maskBlock p k db seed).headD 0x00 = 0x00 := rfl

/-! ### Every result fits its output buffer -/

theorem finishOf_fits (i : Instr) (s : State) :
    (finishOf i s).result.length ≤ (outPairOf i).buf.cap s.cfg.params := by
  have hw := (Params.wellFormed_iff _).1 s.cfg.ok
  cases i with
  | encode src =>
    simp only [finishOf, State.encodeCmd, outPairOf, OutPair.buf, Buf.cap]
    split
    · simp [Finish.result]
    · rename_i h
      have hc := (encodeChecks_eq_none s).1 h
      simp only [Finish.result]
      rw [length_encodeTransform _ (by simp; omega) (by simp)]
      exact hc.1
  | decode =>
    simp only [finishOf, State.decodeCmd, outPairOf, OutPair.buf, Buf.cap]
    split
    · simp [Finish.result]
    · rename_i h
      have hc := (decodeChecks_eq_none s).1 h
      simp only [decodeTransform]
      split
      · simp [Finish.result]
      · simp only [Finish.result]
        refine (length_extractMessage_le _ _).trans ?_
        rw [length_unmask _ (length_emInput s)]
        omega
  | mgf1 =>
    simp only [finishOf, State.mgf1Cmd, outPairOf, OutPair.buf, Buf.cap]
    split
    · simp [Finish.result]
    · rename_i h
      have hc := (mgf1Checks_eq_none s).1 h
      rw [mgf1_of_le (by omega)]
      simp only [Finish.ofExcept, Finish.result, length_mgfMask]
      exact hc.2
  | hash =>
    simp only [finishOf, State.hashCmd, outPairOf, OutPair.buf, Buf.cap]
    split
    · simp [Finish.result]
    · unfold hashChecked
      split <;> simp [Finish.ofExcept, Finish.result, length_hash]
      omega

theorem cap_beforeCommit (i : Instr) (s : State) (b : Buf) :
    b.cap (beforeCommit i s).cfg.params = b.cap s.cfg.params := by
  rw [beforeCommit_eq]

/-- What a completion's reads see: the result, zeros after it, everything else as before. -/
theorem exec_reads {i : Instr} {s t : State} (h : exec i s = .next t) :
    t.slice (outPairOf i).buf (finishOf i s).result.length = (finishOf i s).result ∧
    (∀ j, (finishOf i s).result.length ≤ j → j < (outPairOf i).buf.cap s.cfg.params →
      t.mem.read ((outPairOf i).buf.base + j) = 0) ∧
    (∀ a, a < (outPairOf i).buf.base ∨ (outPairOf i).buf.base + (outPairOf i).buf.cap s.cfg.params ≤ a →
      t.mem.read a = s.mem.read a) := by
  rw [exec_eq] at h
  obtain rfl : _ = t := by simpa using h
  have hm : (beforeCommit i s).mem = s.mem := by rw [beforeCommit_eq]
  have hf := finishOf_fits i s
  rw [← cap_beforeCommit i s] at hf ⊢
  exact ⟨slice_complete, fun j h1 h2 => read_complete_tail h1 h2,
    fun a ha => by rw [read_complete_outside hf ha, hm]⟩

end Sys2Proof.Machine
end

