-- ==== Sys2Proof/Laws/Step.lean ====
section
/-! SUPPORT. What one step can do, said once, and that every step answers a next state. -/

namespace Sys2Proof.Machine

/-- The core's turn is due: the environment has no move, or gives it the turn. -/
def coreDue (s : State) : Prop := s.inputs = [] ∨ ∃ rest, s.inputs = .core :: rest

/-- What a step can do: run the accepted command, rest, serve a transaction, or follow the reset input. -/
theorem step_cases {s t : State} (h : step s = .next t) :
    (∃ i, coreDue s ∧ s.rst = false ∧ s.seq = .busy i ∧ exec i { s with inputs := s.inputs.tail } = .next t) ∨
    (coreDue s ∧ (s.rst = true ∨ s.seq = .idle) ∧ t = { s with inputs := s.inputs.tail }) ∨
    (∃ tr rest, s.inputs = .transact tr :: rest ∧ t = { s with inputs := rest }.port tr) ∨
    (∃ l rest, s.inputs = .rst l :: rest ∧ t = { s with inputs := rest }.driveRst l) := by
  have core : ∀ u : State, (match u.coreTurn with
      | .run i s' => exec i s'
      | .done s' => .next s') = .next t →
      (∃ i, u.rst = false ∧ u.seq = .busy i ∧ exec i u = .next t) ∨
      ((u.rst = true ∨ u.seq = .idle) ∧ t = u) := by
    intro u hu
    unfold State.coreTurn at hu
    cases hr : u.rst
    · cases hs : u.seq with
      | idle => simp only [hr, hs, Bool.false_eq_true, if_false] at hu; cases hu; simp
      | busy i => simp only [hr, hs, Bool.false_eq_true, if_false] at hu; exact .inl ⟨i, rfl, rfl, hu⟩
    · simp only [hr, if_true] at hu; cases hu; simp
  unfold step State.nextMove at h
  cases hi : s.inputs with
  | nil =>
    simp only [hi] at h
    have e : ({ s with inputs := [] } : State) = s := by rw [← hi]
    rcases core s h with ⟨i, h1, h2, h3⟩ | ⟨h1, h2⟩
    · exact .inl ⟨i, .inl hi, h1, h2, by rw [List.tail_nil, e]; exact h3⟩
    · exact .inr (.inl ⟨.inl hi, h1, by rw [List.tail_nil, e]; exact h2⟩)
  | cons x rest =>
    simp only [hi] at h
    cases x with
    | transact tr => simp only at h; cases h; exact .inr (.inr (.inl ⟨tr, rest, rfl, rfl⟩))
    | rst l => simp only at h; cases h; exact .inr (.inr (.inr ⟨l, rest, rfl, rfl⟩))
    | core =>
      rcases core _ h with ⟨i, h1, h2, h3⟩ | ⟨h1, h2⟩
      · exact .inl ⟨i, .inr ⟨rest, hi⟩, h1, h2, h3⟩
      · exact .inr (.inl ⟨.inr ⟨rest, hi⟩, h1, h2⟩)

/-- Every step answers a next state: nothing in this block stops the machine (R219, R221). -/
theorem step_next (s : State) : ∃ t, step s = .next t := by
  unfold step
  cases s.nextMove with
  | run i u => exact ⟨_, exec_eq i u⟩
  | done u => exact ⟨u, rfl⟩

/-- When the core's turn is due, the accepted command runs (R216). -/
theorem step_core {s : State} {i : Instr} (hs : s.seq = .busy i) (hr : s.rst = false) (h : coreDue s) :
    step s = exec i { s with inputs := s.inputs.tail } := by
  rcases h with h | ⟨rest, h⟩
  · have e : ({ s with inputs := s.inputs.tail } : State) = s := by
      rw [h]
      show ({ s with inputs := [] } : State) = s
      rw [← h]
    rw [e]
    simp only [step, State.nextMove, h, State.coreTurn, hr, hs]
    rfl
  · simp only [step, State.nextMove, h, State.coreTurn, hr, hs]
    rfl

/-- When a transaction is next, the port is given it. -/
theorem step_transact {s : State} {t : Transaction} {rest : List Input} (h : s.inputs = .transact t :: rest) :
    step s = .next ({ s with inputs := rest }.port t) := by simp only [step, State.nextMove, h]

end Sys2Proof.Machine
end

