-- ==== Sys2Proof/Laws/HostRun.lean ====
section
/-! SUPPORT. What one transaction of the host can do, said once, and what one poll of `wait` finds. -/

namespace Sys2Proof.Machine

/-- The host after a transaction that the machine `m` served. -/
def HostState.served (h : HostState) (m : State) (t : Transaction) : HostState :=
  { h with machine := m.serve t, turns := h.turns.tail, reads := h.reads ++ readResult t (m.serve t).answer }

/-- A turn of a core that is IDLE does nothing. -/
theorem step_core_idle {s : State} {rest : List Input} (hs : s.seq = .idle) (h : s.inputs = .core :: rest) :
    step s = .next { s with inputs := rest } := by
  simp only [step, State.nextMove, h, State.coreTurn, hs, ite_self]

/-- No move is lost or gained by a transaction, and with rst low the port serves it. -/
theorem step_transact_front {m : State} {t : Transaction} (hr : m.rst = false) :
    step { m with inputs := .transact t :: m.inputs } = .next (m.serve t) := by
  rw [step_transact (rest := m.inputs) rfl]
  show Host.Outcome.next (m.port t) = _
  rw [State.port, hr]
  rfl

/-- With the core's turn withheld, or the machine IDLE, a transaction of the host is served as the machine stands. -/
theorem HostState.issue_served {h : HostState} (hr : h.machine.rst = false)
    (hq : h.turns.headD true = false ∨ h.machine.seq = .idle) (t : Transaction) :
    h.issue t = .next (h.served h.machine t) := by
  unfold HostState.issue HostState.movesFor
  have one := step_transact_front (t := t) hr
  split
  · rename_i hd
    have hs : h.machine.seq = .idle := hq.resolve_left (by rw [hd]; simp)
    have two := step_core_idle (s := { h.machine with inputs := .core :: .transact t :: h.machine.inputs }) hs rfl
    simp only [List.cons_append, List.nil_append, List.length_cons, List.length_nil, Host.Core.run,
      Sys2Proof.core, two, one, onNext]
    rfl
  · simp only [List.cons_append, List.nil_append, List.length_cons, List.length_nil, Host.Core.run,
      Sys2Proof.core, one, onNext]
    rfl

/-- With the core's turn given to a BUSY machine, the command completes and the transaction is served after it (R216). -/
theorem HostState.issue_completed {h : HostState} {i : Instr} (hr : h.machine.rst = false)
    (hd : h.turns.headD true = true) (hs : h.machine.seq = .busy i) (t : Transaction) :
    h.issue t = .next
      (h.served ((beforeCommit i h.machine).complete (outPairOf i) (finishOf i h.machine)) t) := by
  unfold HostState.issue HostState.movesFor
  rw [if_pos hd]
  have two : step { h.machine with inputs := .core :: .transact t :: h.machine.inputs } =
      exec i { h.machine with inputs := .transact t :: h.machine.inputs } := step_core hs hr (.inr ⟨_, rfl⟩)
  rw [exec_eq] at two
  let u := (beforeCommit i h.machine).complete (outPairOf i) (finishOf i h.machine)
  have hu : (beforeCommit i { h.machine with inputs := .transact t :: h.machine.inputs }).complete (outPairOf i)
      (finishOf i { h.machine with inputs := .transact t :: h.machine.inputs }) =
      { u with inputs := .transact t :: u.inputs } := by
    cases i with
    | encode src => cases src <;> rfl
    | decode => rfl
    | mgf1 => rfl
    | hash => rfl
  have hru : u.rst = false := by simp only [u]; rw [beforeCommit_eq]; simpa using hr
  simp only [List.cons_append, List.nil_append, List.length_cons, List.length_nil, Host.Core.run,
    Sys2Proof.core, two, hu, step_transact_front (m := u) hru, onNext]
  rfl

/-- Bit 1 of the STATUS word is DONE (R51). -/
theorem statusWord_done (s : State) : s.statusWord.getLsbD 1 = s.done := by
  have : ∀ (a b c d : Bool) (x y : BitVec 4),
      (bitAt a 0 ||| bitAt b 1 ||| bitAt c 2 ||| fieldAt x 8 ||| fieldAt y 16 ||| bitAt d 24).getLsbD 1 = b := by
    decide +kernel
  exact this ..

/-- One poll of `wait` that finds the machine `m`: the STATUS word is read, and nothing else changes (R93). -/
theorem HostState.served_poll (h : HostState) (m : State) :
    h.served m (readOf RegName.status.offset) =
      { h with machine := { m with answer := some (.read m.statusWord) }, turns := h.turns.tail,
               reads := h.reads ++ [m.statusWord] } := by
  simp only [HostState.served, serve_read_reg]; rfl

/-- After a poll the host has seen DONE exactly when it is 1 (R121, R51). -/
theorem HostState.sawDone_poll (h : HostState) (m : State) :
    (h.served m (readOf RegName.status.offset)).sawDone = m.done := by
  rw [HostState.served_poll]; exact statusWord_done m

end Sys2Proof.Machine
end

