-- ==== Sys2Proof/Laws/Params.lean ====
section
/-! SUPPORT. The clamped parameters of `Cfg.uninterpreted` shut out no choice that meets R13. -/

namespace Sys2Proof

/-- Every well-formed parameter choice with an uninterpreted hash is `Params.clamp` of some eight numbers. -/
theorem Params.clamp_surjective {p : Params} {id : Nat} (hp : p.wellFormed = true)
    (hh : p.hash = .uninterpreted id) :
    ∃ a b c d e f g, Params.clamp a b c d e f g id = p := by
  obtain ⟨h1, -, h3, h4, h5, h6, h7, h8, h9, h10, h11, -⟩ := p.wellFormed_iff.1 hp
  obtain ⟨hL, hM, k, l, i, o, base, hash⟩ := p
  dsimp only at *
  subst hh
  refine ⟨hL - 1, k - (2 * hL + 2), l, i, o - hL, hM - max l (max (i + 4) (k + 4)), base, ?_⟩
  have e1 : 1 + (hL - 1) % 2047 = hL := by rw [Nat.mod_eq_of_lt (by omega)]; omega
  have e2 : 2 * hL + 2 + (k - (2 * hL + 2)) % (4097 - (2 * hL + 2)) = k := by
    rw [Nat.mod_eq_of_lt (by omega)]; omega
  have e3 : l % 4097 = l := Nat.mod_eq_of_lt (by omega)
  have e4 : i % 4097 = i := Nat.mod_eq_of_lt (by omega)
  have e5 : hL + (o - hL) % (4097 - hL) = o := by rw [Nat.mod_eq_of_lt (by omega)]; omega
  have e6 : max l (max (i + 4) (k + 4)) + (hM - max l (max (i + 4) (k + 4))) = hM := by omega
  simp only [Params.clamp, e1, e2, e3, e4, e5, e6]

end Sys2Proof
end

