-- ==== Sys2Proof/Laws/PerInstr.lean ====
section
/-! SUPPORT. What holds of every command as syntax: its fields are legal (R111 to R113) and its word is of its row of
spec/opcode_table.json. -/

namespace Sys2Proof.Laws.LegalFields

/-- The fields of the command's word are legal, and its word matches its row of the opcode table. -/
def Statement (i : Instr) : Prop := i.fields.wellFormed = true ∧ i.row.matchesWord (Sys2Proof.encode i) = true

theorem encode (src : SeedSrc) : Statement (.encode src) := by cases src <;> exact ⟨by decide, by decide⟩

theorem decode : Statement .decode := ⟨by decide, by decide⟩

theorem mgf1 : Statement .mgf1 := ⟨by decide, by decide⟩

theorem hash : Statement .hash := ⟨by decide, by decide⟩

end Sys2Proof.Laws.LegalFields
end

