-- ==== Sys2Proof/Tests/Slice0.lean ====
section
/-! SUPPORT. Tests: ill-formed terms that the checks refuse, command words written out from the spec, the vectors of
95_test_vectors.md one step at a time, and one witness for the hypotheses of each statement that has any. -/

namespace Sys2Proof.Tests

open Sys2Proof Sys2Proof.Machine

/-! ### Ill-formed terms: one for each check -/

theorem test_toy_is_well_formed : Config.toy.wellFormed = true := by decide

theorem test_ref_is_well_formed : Config.ref.wellFormed = true := by decide

theorem test_sha_is_well_formed : Config.sha.wellFormed = true := by decide

theorem test_p1_refuses : ({ Config.toy with hLen := 0 } : Params).p1 = false := by decide

theorem test_p1_refuses_above : ({ Config.toy with hLen := 4097 } : Params).p1 = false := by decide

theorem test_p2_refuses : ({ Config.toy with kMax := 9 } : Params).p2 = false := by decide

theorem test_p2_refuses_above : ({ Config.toy with kMax := 4097 } : Params).p2 = false := by decide

theorem test_p3_refuses : ({ Config.toy with lMax := 4097 } : Params).p3 = false := by decide

theorem test_p4_refuses : ({ Config.toy with inMax := 4097 } : Params).p4 = false := by decide

theorem test_p5_refuses : ({ Config.toy with outMax := 3 } : Params).p5 = false := by decide

theorem test_p6_refuses : ({ Config.toy with hashMaxIn := 67 } : Params).p6 = false := by decide

theorem test_p7_refuses : ({ Config.toy with hLen := 5 } : Params).p7 = false := by decide

theorem test_ill_formed_parameters_refused :
    ({ Config.toy with kMax := 9 } : Params).wellFormed = false := by decide

theorem test_fields_refuse_bad_op : (⟨5, 0, 0, 0⟩ : CmdFields).opcodeLegal = false := by decide

theorem test_fields_refuse_low_reserved : (⟨1, 1, 0, 0⟩ : CmdFields).reservedLegal = false := by decide

theorem test_fields_refuse_high_reserved : (⟨1, 0, 0, 1⟩ : CmdFields).reservedLegal = false := by decide

theorem test_fields_refuse_misplaced_seed_src : (⟨2, 0, 1, 0⟩ : CmdFields).wellFormed = false := by decide

/-! ### Decoding: words of 30_encoding.md R115 and 95_test_vectors.md section 7.1 -/

theorem test_decode_encode_fresh : decodeCmd 0x00000001 = .legal (.encode .fresh) := by decide

theorem test_decode_encode_host_seed : decodeCmd 0x00000101 = .legal (.encode .seedBuf) := by decide

theorem test_decode_decode : decodeCmd 0x00000002 = .legal .decode := by decide

theorem test_decode_mgf1 : decodeCmd 0x00000003 = .legal .mgf1 := by decide

theorem test_decode_hash : decodeCmd 0x00000004 = .legal .hash := by decide

/-- V-CMD-1 to V-CMD-5. -/
theorem test_bad_opcodes :
    decodeCmd 0x00000000 = .illegal .badOpcode ∧ decodeCmd 0x00000005 = .illegal .badOpcode ∧
    decodeCmd 0x0000000F = .illegal .badOpcode ∧ decodeCmd 0xFFFFFFFF = .illegal .badOpcode ∧
    decodeCmd 0x00000100 = .illegal .badOpcode := by decide

/-- V-CMD-6 to V-CMD-8. -/
theorem test_reserved_bits :
    decodeCmd 0x00000102 = .illegal .reservedBits ∧ decodeCmd 0x00000103 = .illegal .reservedBits ∧
    decodeCmd 0x00000104 = .illegal .reservedBits ∧ decodeCmd 0x00000011 = .illegal .reservedBits := by decide

/-- V-CMD-9 and V-CMD-10. -/
theorem test_reserved_bits_high :
    decodeCmd 0x00000201 = .illegal .reservedBits ∧ decodeCmd 0x80000001 = .illegal .reservedBits := by decide

/-- The encoder's words are R115's. -/
theorem test_encode_words : encode (.encode .fresh) = 0x00000001 ∧ encode (.encode .seedBuf) = 0x00000101 ∧
    encode .decode = 0x00000002 ∧ encode .mgf1 = 0x00000003 ∧ encode .hash = 0x00000004 := by decide +kernel

theorem test_table_word : decodeTableWord 32 0x101 = some (.encode .seedBuf) ∧
    decodeTableWord 32 0x102 = none ∧ decodeTableWord 40 0x100000001 = none := by decide

/-! ### States for the vectors -/

def toy : Cfg := ⟨Config.toy, by decide⟩

/-- The variant of V-BUS-16: H_LEN = 5, so SEED_BUF's last window word has pad bytes. The hash is left open. -/
def toy5 : Cfg := ⟨{ Config.toy with hLen := 5, hash := .uninterpreted 0 }, by decide⟩

def sha : Cfg := ⟨Config.sha, by decide⟩

def start : State := State.resetWith toy

/-- The state an outcome leads to. -/
def after {σ : Type} (o : Host.Outcome σ Fault Refusal) : Option σ :=
  match o with
  | .next s => some s
  | .fault _ => none
  | .refused _ => none

def em1 : List Byte := [0x00, 0x1B, 0x50, 0x90, 0x30, 0x08, 0xA0, 0x40, 0xE0, 0x08, 0xA0, 0x00]

/-- The inputs of V-ENC-1. -/
def enc1 : State :=
  { (start.writeBuf .msg 0 [0x41]).writeBuf .seed 0 [0x10, 0x20, 0x30, 0x40] with k := 12, msgLen := 1 }

/-- The inputs of a DECODE of a 12-byte EM with the empty label. -/
def dec (em : List Byte) : State := { start.writeBuf .em 0 em with k := 12, emLen := 12 }

/-- IN_BUF and IN_LEN hold a string. -/
def input (c : Cfg) (bytes : List Byte) : State :=
  { (State.resetWith c).writeBuf .inp 0 bytes with inLen := BitVec.ofNat 32 bytes.length }

/-! ### ENCODE: V-ENC-1, V-ENC-7, V-SHA-ENC-1 -/

theorem test_v_enc_1 : (after (exec (.encode .seedBuf) enc1)).map
    (fun t => (t.slice .em 12, t.emLen, t.statusWord)) = some (em1, 12, 0x00000002) := by decide +kernel

/-- V-ENC-7: a label, and a message of two bytes. -/
theorem test_v_enc_7 : (after (exec (.encode .seedBuf)
    { (enc1.writeBuf .msg 0 [0x68, 0x69]).writeBuf .label 0 [0x4C, 0x31] with
      k := 16, msgLen := 2, labelLen := 2 })).map (fun t => (t.slice .em 16, t.emLen, t.statusWord)) =
    some ([0x00, 0x1F, 0x62, 0x7C, 0xF6, 0x0A, 0xDD, 0x3D, 0x4E, 0x08, 0xA1, 0x41, 0xE8, 0x09, 0xCA, 0x2B],
      16, 0x00000002) := by decide +kernel

/-! ### DECODE: V-DEC-1, V-DEC-10 -/

theorem test_v_dec_1 : (after (exec .decode (dec em1))).map
    (fun t => (t.slice .msg 2, t.msgLen, t.statusWord)) = some ([0x41, 0x00], 1, 0x00000002) := by
  decide +kernel

/-- V-DEC-10: a second 0x01 is data. -/
theorem test_v_dec_10 : (after (exec .decode
    (dec [0x00, 0x1B, 0x94, 0xD2, 0x0A, 0x08, 0xA0, 0x40, 0xE0, 0x09, 0xA0, 0x43]))).map
    (fun t => (t.slice .msg 3, t.msgLen, t.statusWord)) = some ([0x01, 0x02, 0x00], 2, 0x00000002) := by
  decide +kernel

/-! ### MGF1: V-MGF-3, V-SHA-MGF-2 -/

theorem test_v_mgf_3 : (after (exec .mgf1 { input toy [0x01, 0x02, 0x03, 0x04] with maskLen := 9 })).map
    (fun t => (t.slice .out 10, t.outLen, t.statusWord)) =
    some ([0x08, 0x0A, 0x04, 0x1E, 0x08, 0x0B, 0x05, 0x26, 0x08, 0x00], 9, 0x00000002) := by decide +kernel

theorem test_v_sha_mgf_2 : (after (exec .mgf1 { input sha [0x61, 0x62, 0x63] with maskLen := 25 })).map
    (fun t => (bigEndian (t.slice .out 25), t.outLen)) =
    some (0xa03eb8ac3e6ad809805ec489ce85f2cefe8d00c69595e19565, 25) := by decide +kernel

/-! ### HASH: V-HASH-2, V-SHA-HASH-2 -/

theorem test_v_hash_2 : (after (exec .hash (input toy [0x61, 0x62, 0x63]))).map
    (fun t => (t.slice .out 5, t.outLen, t.statusWord)) =
    some ([0x03, 0x26, 0x60, 0x4E, 0x00], 4, 0x00000002) := by decide +kernel

theorem test_v_sha_hash_2 : (after (exec .hash (input sha [0x61, 0x62, 0x63]))).map
    (fun t => (bigEndian (t.slice .out 20), t.outLen)) =
    some (0xa9993e364706816aba3e25717850c26c9cd0d89d, 20) := by decide +kernel

/-! ### The host assembly's pseudo-instructions (R121) -/

theorem test_ack_is_a_status_write : HostOp.ack.expand = [⟨.write, 0x028, .four, 0x00000002⟩] := by decide

theorem test_srst_is_a_ctrl_write : HostOp.srst.expand = [⟨.write, 0x020, .four, 0x00000002⟩] := by decide

/-- Program P2: `load IN, 01 02 03 04` is the one write `W 5000 04030201`. -/
theorem test_load_expands : (HostOp.load .inp [0x01, 0x02, 0x03, 0x04]).expand =
    [⟨.write, 0x5000, .four, 0x04030201⟩] := by decide

/-- Program P2: `dump OUT, 9` is the three reads 6000, 6004, 6008. -/
theorem test_dump_expands : (HostOp.dump .out 9).expand = [readOf 0x6000, readOf 0x6004, readOf 0x6008] := by
  decide

/-- Program P2: the words `dump OUT, 9` reads, unpacked little-endian, are the mask of V-MGF-3. -/
theorem test_dump_unpacks : unpackWords 9 [0x1E040A08, 0x26050B08, 0x00000008] =
    [0x08, 0x0A, 0x04, 0x1E, 0x08, 0x0B, 0x05, 0x26, 0x08] := by decide

/-- Program P1's `wait`: STATUS reads 00000001 while BUSY, here once, then 00000002. -/
theorem test_wait_polls :
    (after (HostOp.wait.run ⟨{ enc1 with seq := .busy (.encode .seedBuf) }, [false, true, true], [], false⟩)).map
      (fun h => (h.reads, h.turns, h.waiting)) = some ([0x00000001, 0x00000002], [true], false) := by
  decide +kernel

/-! ### The bus: section 7.2 -/

/-- V-BUS-6: the lanes of a window word. -/
theorem test_v_bus_6 : ((start.serve (writeOf 0x1000 0x6C6C6568)).serve (writeOf 0x1004 0x0000006F)).slice .msg 8 =
    [0x68, 0x65, 0x6C, 0x6C, 0x6F, 0x00, 0x00, 0x00] := by decide +kernel

/-- V-BUS-11: W1C of DONE and BUSY_VIOL; ERRCODE stays. -/
theorem test_v_bus_11 :
    let s := { start with done := true, errCode := 2, busyViol := true }
    s.statusWord = 0x01000206 ∧ (s.serve (writeOf 0x0028 0xFFFFFFFF)).statusWord = 0x00000204 := by decide

/-- V-BUS-16: pad bytes are dropped by a write and read as 0x00. -/
theorem test_v_bus_16 :
    let t := (State.resetWith toy5).serve (writeOf 0x3004 0xAABBCCDD)
    t.slice .seed 8 = [0, 0, 0, 0, 0xDD, 0, 0, 0] ∧
      (t.serve (readOf 0x3004)).answer = some (.read 0x000000DD) := by decide +kernel

/-- V-RST-6: a soft reset while BUSY. -/
theorem test_v_rst_6 :
    ({ start with seq := .busy .hash, irqEn := true }.serve (writeOf 0x0020 0x00000002)) =
      { start with answer := some .written } := by decide

/-! ### Witnesses: hypotheses that concrete states meet, at the edges of their ranges -/

/-- A toy machine with a command accepted. -/
def busyToy (i : Instr) : State := { start with seq := .busy i }

theorem exec_answers (i : Instr) (s : State) : ∃ t, exec i s = .next t := ⟨_, exec_eq i s⟩

theorem witness_StepRunsTheAcceptedCommand :
    ((busyToy .hash).seq = .busy .hash ∧ (busyToy .hash).rst = false ∧ (busyToy .hash).inputs = []) ∧
    (let s := { busyToy .mgf1 with inputs := [.core, .rst true] }
     s.seq = .busy .mgf1 ∧ s.rst = false ∧ s.inputs = .core :: [.rst true]) := by decide +kernel

theorem witness_StepServesTheNextTransaction :
    let s := { start with inputs := [.transact (readOf 0x028)] }
    s.inputs = .transact (readOf 0x028) :: [] ∧ s.rst = false := by decide

theorem witness_PlacedCommandRunsNext : decodeCmd 0x00000101 = .legal (.encode .seedBuf) := by decide

theorem witness_CommandWordIsAccepted :
    (start.seq = .idle ∧ decodeCmd 0x00000004 = .legal .hash) ∧
    (start.seq = .idle ∧ decodeCmd 0x00000005 = .illegal .badOpcode) ∧
    (busyToy .decode).seq ≠ .idle := by decide

/-- OP 0 and OP 5, and a reserved bit beside a legal OP. -/
theorem witness_IllegalWordEndsAtOnce :
    let illegal : Word → Prop := fun v => v ≠ 0x00000001 ∧ v ≠ 0x00000101 ∧ v ≠ 0x00000002 ∧
      v ≠ 0x00000003 ∧ v ≠ 0x00000004
    start.seq = .idle ∧ illegal 0x00000000 ∧ illegal 0x00000005 ∧ illegal 0x00000011 := by
  intro illegal
  exact ⟨rfl, by decide, by decide, by decide⟩

theorem witness_CommitOfSuccess : ([] : List Byte).length ≤ OutPair.em.buf.cap start.cfg.params ∧
    (zeros 64).length ≤ OutPair.em.buf.cap start.cfg.params := by decide +kernel

theorem witness_CompletionTouchesOnlyItsOutputPair : (∃ t, exec (.encode .fresh) enc1 = .next t) ∧
    (∃ t, exec .decode (dec em1) = .next t) ∧ (∃ t, exec .mgf1 start = .next t) ∧
    (∃ t, exec .hash start = .next t) :=
  ⟨exec_answers _ _, exec_answers _ _, exec_answers _ _, exec_answers _ _⟩

theorem witness_HashWritesTheDigest :
    ({ start with inLen := 64 }).inLen.toNat ≤ start.cfg.params.inMax ∧
      start.inLen.toNat ≤ start.cfg.params.inMax := by decide

/-- V-HASH-5: the first length that fails. -/
theorem witness_HashFailsOnlyInRange :
    start.cfg.params.inMax < ({ start with inLen := 65 }).inLen.toNat := by decide

theorem witness_MaskIsTruncatedHashBlocks :
    9 ≤ 3 * toy.params.hLen ∧ (∀ m, 9 ≤ m * toy.params.hLen → 3 ≤ m) ∧ ¬ 2 ^ 32 * toy.params.hLen < 9 := by
  have : toy.params.hLen = 4 := rfl
  rw [this]
  exact ⟨by decide, fun m h => by omega, by decide⟩

/-- The clause of the mask that is too long. -/
theorem witness_MaskIsTruncatedHashBlocks_too_long :
    let l := 2 ^ 32 * toy.params.hLen + 1
    l ≤ (2 ^ 32 + 1) * toy.params.hLen ∧ (∀ m, l ≤ m * toy.params.hLen → 2 ^ 32 + 1 ≤ m) ∧
      2 ^ 32 * toy.params.hLen < l := by
  have : toy.params.hLen = 4 := rfl
  rw [this]
  exact ⟨by decide, fun m h => by omega, by decide⟩

theorem witness_MaskLengthBlocksPrefix :
    8 ≤ 2 ^ 32 * toy.params.hLen ∧ 8 = 2 * toy.params.hLen ∧ 3 ≤ 8 ∧ 0 ≤ 2 ^ 32 * toy.params.hLen := by decide

theorem witness_Mgf1WritesTheMask :
    let s := { start with inLen := 64, maskLen := 64 }
    s.inLen.toNat ≤ s.cfg.params.inMax ∧ s.maskLen.toNat ≤ s.cfg.params.outMax := by decide

/-- V-MGF-7 and V-MGF-8. -/
theorem witness_Mgf1FailsInOrder :
    start.cfg.params.inMax < ({ start with inLen := 65 }).inLen.toNat ∧
      start.cfg.params.outMax < ({ start with maskLen := 65 }).maskLen.toNat := by decide

/-- V-ENC-9's lengths: the largest K and the longest message, with the longest label. -/
def full : State := { start with k := 64, msgLen := 54, labelLen := 16 }

theorem witness_EncodeWritesTheEncodedMessage :
    full.k.toNat ≤ full.cfg.params.kMax ∧
      full.msgLen.toNat + 2 * full.cfg.params.hLen + 2 ≤ full.k.toNat ∧
      full.labelLen.toNat ≤ full.cfg.params.lMax := by decide

/-- V-ENC-8, V-ENC-3, V-ENC-10: each check fails first somewhere, and none does in V-ENC-1. -/
theorem witness_EncodeFailsInOrder :
    [{ enc1 with k := 65, msgLen := 100 }, { enc1 with msgLen := 3, labelLen := 17 },
      { enc1 with labelLen := 17 }, enc1].map
      (fun s => (after (exec (.encode .seedBuf) s)).map fun t => (t.errCode, t.errDetail)) =
    [some (1, 2), some (1, 1), some (1, 5), some (0, 0)] := by decide +kernel

theorem witness_EncodedMessageShape :
    ([0x41, 0x42] : List Byte).length + 2 * toy.params.hLen + 2 ≤ 12 ∧
      ([0x10, 0x20, 0x30, 0x40] : List Byte).length = toy.params.hLen := by decide

theorem witness_LeadingZeroKeepsBelowModulus :
    1 ≤ 256 ∧ ([0x00, 0xFF] : List Byte).length = modulusBytes 256 ∧
      ([0x00, 0xFF] : List Byte)[0]? = some 0x00 ∧ ([0x00] : List Byte).length = modulusBytes 1 := by
  decide +kernel

/-- Two states that differ in bytes the rule does not read. -/
theorem witness_EncodeReadsOnlyItsOperands :
    let s' := { enc1.writeBuf .msg 1 [0xFF] with emLen := 7, inLen := 9, done := true }
    s'.cfg = enc1.cfg ∧ s'.k = enc1.k ∧ s'.msgLen = enc1.msgLen ∧ s'.labelLen = enc1.labelLen ∧
      s'.slice .msg enc1.msgLen.toNat = enc1.slice .msg enc1.msgLen.toNat ∧
      s'.slice .label enc1.labelLen.toNat = enc1.slice .label enc1.labelLen.toNat ∧
      s'.slice .seed enc1.cfg.params.hLen = enc1.slice .seed enc1.cfg.params.hLen ∧ s' ≠ enc1 := by
  decide +kernel

theorem witness_DrawsAreNeverReused : (∃ t, step start = .next t) ∧
    (∃ t, exec (.encode .fresh) enc1 = .next t) ∧
    ((busyToy .hash).seq ≠ .idle ∧ 60 < Buf.em.cap (busyToy .hash).cfg.params ∧ 60 % 4 = 0) :=
  ⟨step_next start, exec_answers _ _, by decide⟩

/-- V-DEC-1: the separator stands at j = 5. -/
theorem witness_DecodeRecoversTheMessage :
    let s := dec em1
    let h := s.cfg.params.hLen
    let k := s.k.toNat
    let em := s.slice .em k
    let maskedDb := em.drop (1 + h)
    let seed := List.zipWith (· ^^^ ·) ((em.take (1 + h)).drop 1) (mgfMask s.cfg.params maskedDb h)
    let db := List.zipWith (· ^^^ ·) maskedDb (mgfMask s.cfg.params seed (k - h - 1))
    s.k.toNat ≤ s.cfg.params.kMax ∧ s.emLen = s.k ∧ 2 * s.cfg.params.hLen + 2 ≤ s.k.toNat ∧
      s.labelLen.toNat ≤ s.cfg.params.lMax ∧ em[0]? = some 0x00 ∧
      db.take h = hash s.cfg.params (s.slice .label s.labelLen.toNat) ∧
      h ≤ 5 ∧ db[5]? = some 0x01 ∧ ∀ i, h ≤ i → i < 5 → db[i]? = some 0x00 := by
  refine ⟨by decide +kernel, by decide +kernel, by decide +kernel, by decide +kernel, by decide +kernel,
    by decide +kernel, by decide +kernel, by decide +kernel, fun i h1 h2 => ?_⟩
  obtain rfl : i = 4 := by have : 4 ≤ i := h1; omega
  decide +kernel

/-- V-DEC-4 (Y), V-DEC-11 (the label), V-DEC-6 (the separator). -/
def emY : List Byte := [0x01, 0x1B, 0x50, 0x90, 0x30, 0x08, 0xA0, 0x40, 0xE0, 0x08, 0xA0, 0x00]

def emL : List Byte := [0x00, 0x1B, 0x5A, 0x94, 0xCE, 0x09, 0xA2, 0x43, 0xE4, 0x08, 0xA0, 0x00]

def emS : List Byte := [0x00, 0x1B, 0x92, 0xD0, 0x7D, 0x08, 0xA0, 0x40, 0xE0, 0x08, 0xA1, 0x41]

/-- Each of the three conditions alone. The DB of V-DEC-6 is all 0x00, so no index is its separator. -/
theorem witness_DecodeFailsUniformly :
    let db := fun em => unmask toy.params 12 em
    (∀ em ∈ [emY, emL, emS], (dec em).k.toNat ≤ (dec em).cfg.params.kMax ∧ (dec em).emLen = (dec em).k ∧
      2 * (dec em).cfg.params.hLen + 2 ≤ (dec em).k.toNat ∧
      (dec em).labelLen.toNat ≤ (dec em).cfg.params.lMax ∧ (dec em).slice .em 12 = em) ∧
    emY[0]? ≠ some 0x00 ∧ (db emL).take toy.params.hLen ≠ hash toy.params [] ∧
    ¬ ∃ j, toy.params.hLen ≤ j ∧ (db emS)[j]? = some 0x01 ∧
      ∀ i, toy.params.hLen ≤ i → i < j → (db emS)[i]? = some 0x00 := by
  refine ⟨by decide +kernel, by decide +kernel, by decide +kernel, ?_⟩
  rintro ⟨j, -, hj, -⟩
  have hdb : unmask toy.params 12 emS = List.replicate 7 0x00 := by decide +kernel
  simp only [hdb, List.getElem?_replicate] at hj
  split at hj
  · exact absurd hj (by decide)
  · exact absurd hj (by simp)

theorem witness_DecodeFailuresAreIndistinguishable :
    (∀ a, a < 0x4000 ∨ 0x4000 + (dec emY).cfg.params.kMax ≤ a →
      Memory.read ((dec emY).mem.replace 0x4000 emS) a = (dec emY).mem.read a) ∧
    (after (exec .decode (dec emY))).map (·.errCode) = some 2 ∧
    (after (exec .decode { dec emY with mem := (dec emY).mem.replace 0x4000 emS })).map (·.errCode) = some 2 := by
  refine ⟨fun a h => Memory.read_replace_outside ?_, by decide +kernel, by decide +kernel⟩
  have e : (dec emY).cfg.params.kMax = 64 := rfl
  have e' : emS.length = 12 := rfl
  omega

/-- V-DEC-17, V-DEC-14, V-DEC-15, V-DEC-18 and V-DEC-1. -/
theorem witness_DecodeLengthChecksInOrder :
    [{ dec em1 with k := 65, emLen := 65 }, { dec em1 with emLen := 11 }, { dec em1 with k := 9, emLen := 9 },
      { dec em1 with labelLen := 17 }, dec em1].map
      (fun s => (after (exec .decode s)).map fun t => (t.errCode, t.errDetail)) =
    [some (1, 2), some (1, 3), some (1, 4), some (1, 5), some (0, 0)] := by decide +kernel

theorem witness_DecodeInvertsEncode :
    let s := dec em1
    let seed : List Byte := [0x10, 0x20, 0x30, 0x40]
    2 * s.cfg.params.hLen + 2 ≤ s.k.toNat ∧ s.k.toNat ≤ s.cfg.params.kMax ∧
      ([] : List Byte).length ≤ s.cfg.params.lMax ∧ seed.length = s.cfg.params.hLen ∧
      ([0x41] : List Byte).length + 2 * s.cfg.params.hLen + 2 ≤ s.k.toNat ∧
      s.slice .em s.k.toNat = encodeTransform s.cfg.params s.k.toNat [0x41] [] seed ∧ s.emLen = s.k ∧
      s.labelLen.toNat = ([] : List Byte).length ∧ s.slice .label ([] : List Byte).length = [] := by
  decide +kernel

theorem witness_EncodeThenDecodeReturnsTheMessage :
    enc1.k.toNat ≤ enc1.cfg.params.kMax ∧
      enc1.msgLen.toNat + 2 * enc1.cfg.params.hLen + 2 ≤ enc1.k.toNat ∧
      enc1.labelLen.toNat ≤ enc1.cfg.params.lMax := by decide

/-- V-BUS-5. -/
theorem witness_NarrowOrMisalignedHasNoEffect :
    (⟨.read, 0x1000, .one, 0⟩ : Transaction).size ≠ .four ∧
      (⟨.read, 0x1002, .four, 0⟩ : Transaction).off.toNat % 4 ≠ 0 := by decide

/-- V-BUS-3 and V-BUS-4. -/
theorem witness_UnmappedHasNoEffect :
    0x7000 ≤ (readOf 0x7000).off.toNat ∧
    ((readOf 0x01C).off.toNat < 0x1000 ∧ ∀ r : RegName, r.offset ≠ (readOf 0x01C).off.toNat) ∧
    (Buf.msg.base ≤ (readOf 0x1040).off.toNat ∧ (readOf 0x1040).off.toNat < Buf.msg.base + 0x1000 ∧
      Buf.msg.cap start.cfg.params ≤ (readOf 0x1040).off.toNat - Buf.msg.base) :=
  ⟨by decide, ⟨by decide, fun r => by cases r <;> decide⟩, by decide⟩

/-- The last word of a window, and the last word of one with pad bytes. -/
theorem witness_WindowReadLanes :
    (start.seq = .idle ∧ 60 < Buf.out.cap start.cfg.params ∧ 60 % 4 = 0) ∧
    (let s := State.resetWith toy5
     s.seq = .idle ∧ 4 < Buf.seed.cap s.cfg.params ∧ ¬ 4 + 1 < Buf.seed.cap s.cfg.params) := by decide

theorem witness_BusyWindowReadIsFree :
    (busyToy .decode).seq ≠ .idle ∧ 60 < Buf.em.cap (busyToy .decode).cfg.params ∧ 60 % 4 = 0 := by decide

theorem witness_WindowWriteStoresItsBytes :
    let s := State.resetWith toy5
    s.seq = .idle ∧ Buf.seed ≠ .out ∧ 4 < Buf.seed.cap s.cfg.params ∧ 4 % 4 = 0 := by decide

theorem witness_WindowReadAfterWrite :
    start.seq = .idle ∧ Buf.em ≠ .out ∧ 60 + 4 ≤ Buf.em.cap start.cfg.params ∧ 60 % 4 = 0 := by decide

/-- Read-only registers and the last word of OUT_BUF, BUSY; a length register, IDLE. -/
theorem witness_RegisterWritesByOffset :
    0x048 ∈ [0x000, 0x004, 0x008, 0x00C, 0x010, 0x014, 0x018, 0x048] ∧
      60 < (busyToy .hash).cfg.params.outMax ∧ 60 % 4 = 0 ∧ start.seq = .idle := by decide

/-- V-BUS-15. -/
theorem witness_BusyWritesAreDropped :
    (busyToy .hash).seq ≠ .idle ∧ 0x044 ∈ [0x024, 0x030, 0x034, 0x038, 0x03C, 0x040, 0x044] ∧
      Buf.seed ≠ .out ∧ 0 < Buf.seed.cap (busyToy .hash).cfg.params := by decide

/-- Program P4, schedule b: a MSG_LEN write and a STATUS read before the completion. -/
theorem witness_InputsHeldWhileBusy :
    let ts := [writeOf 0x034 2, readOf 0x028]
    let s := { enc1 with seq := .busy (.encode .seedBuf), inputs := ts.map .transact }
    s.seq = .busy (.encode .seedBuf) ∧ s.rst = false ∧ (∀ t ∈ ts, isSoftReset t = false) ∧
      s.inputs = ts.map .transact ∧ Instr.encode .seedBuf ≠ .encode .fresh := by decide +kernel

theorem witness_SoftResetClearsEverything :
    (0x00000003 : Word).getLsbD 1 = true ∧ (0xFFFFFFFD : Word).getLsbD 1 = false := by decide

theorem witness_HardwareReset :
    (let s := { start with rst := true, inputs := [.rst false] }
     s.inputs = .rst false :: [] ∧ s.rst ≠ false) ∧
    (let s := { busyToy .hash with inputs := [.rst true] }
     s.inputs = .rst true :: [] ∧ s.rst ≠ true) ∧
    (let s := { busyToy .hash with inputs := [.rst false] }
     s.inputs = .rst false :: [] ∧ s.rst = false) ∧
    (let s := { start with rst := true, inputs := [.transact (readOf 0)] }
     s.inputs = .transact (readOf 0) :: [] ∧ s.rst = true) ∧
    (let s := { start with rst := true, inputs := [.core] }
     s.inputs = .core :: [] ∧ s.rst = true) := by decide

theorem witness_CommandPseudosIssueTheirCommand : start.seq = .idle := by decide

/-- A string that fills SEED_BUF, and one whose last word is not full. -/
theorem witness_LoadPutsTheBytesInTheBuffer :
    start.seq = .idle ∧ Buf.seed ≠ .out ∧
      ([0x10, 0x20, 0x30, 0x40] : List Byte).length ≤ Buf.seed.cap start.cfg.params ∧
      ([0x68, 0x65, 0x6C, 0x6C, 0x6F] : List Byte).length ≤ Buf.msg.cap start.cfg.params ∧
      5 < 4 * ceilDiv 5 4 := by decide

/-- A host before a machine, with the core's turn withheld before its first transaction. -/
def hostOf (s : State) : HostState := ⟨s, [false], [], false⟩

/-- IDLE, BUSY with DONE 0, IDLE with DONE 1, IDLE with DONE 0. -/
theorem witness_WaitEndsWhenDoneIsRead :
    (∀ s ∈ [start, busyToy .hash, { start with done := true }],
      (hostOf s).machine.rst = false ∧ (hostOf s).waiting = false) ∧
    (hostOf (busyToy .hash)).machine.seq = .busy .hash ∧ (hostOf (busyToy .hash)).machine.done = false ∧
    (hostOf { start with done := true }).machine.done = true ∧
    (hostOf start).machine.seq = .idle ∧ (hostOf start).machine.done = false := by decide +kernel

/-- All of OUT_BUF; and 5 bytes of SEED_BUF, whose last window word has pad bytes. -/
theorem witness_DumpReadsTheBufferBytes :
    ((hostOf start).machine.rst = false ∧ (hostOf start).waiting = false ∧ (hostOf start).machine.seq = .idle ∧
      64 ≤ Buf.out.cap (hostOf start).machine.cfg.params) ∧
    (let h := hostOf (State.resetWith toy5)
     h.machine.rst = false ∧ h.waiting = false ∧ h.machine.seq = .idle ∧
      5 ≤ Buf.seed.cap h.machine.cfg.params ∧ 5 % 4 ≠ 0) := by decide

/-- irq rises by a completion, by an illegal word, and by enabling it while DONE is 1. -/
theorem witness_IrqRisesOnlyByCompletion :
    [{ busyToy .hash with irqEn := true },
      { start with irqEn := true, inputs := [.transact (writeOf 0x024 0)] },
      { start with done := true, inputs := [.transact (writeOf 0x020 1)] }].map
      (fun s => (s.irq, (after (step s)).map State.irq)) =
    [(false, some true), (false, some true), (false, some true)] := by decide +kernel

theorem witness_CompletionRaisesIrqWhenEnabled : (∃ t, exec .decode (busyToy .decode) = .next t) ∧
    start.seq = .idle ∧ decodeCmd 0x00000102 = .illegal .reservedBits :=
  ⟨exec_answers _ _, by decide, by decide⟩

theorem witness_ReadsHaveNoSideEffect : (readOf 0x4000).kind = .read ∧ start.seq = .idle := by decide

/-- A BUSY machine with two transactions and a move of rst to the level it has to come. -/
theorem witness_AcceptedCommandCompletes :
    let s := { busyToy .mgf1 with
      inputs := [.transact (readOf 0x028), .rst false, .transact (writeOf 0x030 1)] }
    s.seq = .busy .mgf1 ∧ s.rst = false ∧
      (∀ t, .transact t ∈ s.inputs → isSoftReset t = false) ∧ Input.rst true ∉ s.inputs := by
  refine ⟨rfl, rfl, fun t h => ?_, by decide⟩
  simp only [List.mem_cons, List.not_mem_nil, or_false, Input.transact.injEq, reduceCtorEq, false_or] at h
  rcases h with rfl | rfl <;> decide

/-- A BUSY machine that goes on, one that completes, one that a soft reset ends, one that the reset input ends. -/
theorem witness_BusyEndsOnlyByCompletionOrReset :
    [[Input.rst false], [.core], [.transact (writeOf 0x020 2)], [.rst true]].map
      (fun inputs => (after (step { busyToy .hash with inputs := inputs })).map fun t => (t.seq, t.done)) =
    [some (.busy .hash, false), some (.idle, true), some (.idle, false), some (.idle, false)] := by
  decide +kernel

theorem witness_IdleKeepsItsState :
    (start.seq = .idle ∧ start.inputs = []) ∧
    ({ start with inputs := [.core] }).inputs = .core :: [] := by decide

/-- A BUSY state with a stored byte, not a reset state. -/
theorem witness_StepKeepsInvariant :
    Inv { enc1 with seq := .busy (.encode .seedBuf) } ∧
      ∃ t, step { enc1 with seq := .busy (.encode .seedBuf) } = .next t := by
  refine ⟨⟨by decide +kernel, fun c hc => ?_, by decide, fun i _ => by decide, by decide, fun i _ h => ?_,
    fun h => absurd h (by decide)⟩, step_next _⟩
  · have : ∀ c ∈ enc1.mem, c.1 = 0x1000 ∨ (0x3000 ≤ c.1 ∧ c.1 < 0x3004) := by decide +kernel
    rcases this c hc with h | h
    · exact ⟨.msg, by simp [Buf.base, h], by rw [h]; decide⟩
    · exact ⟨.seed, h.1, h.2⟩
  · refine Memory.read_absent fun c hc => ?_
    have : ∀ c ∈ enc1.mem, c.1 < 0x6000 := by decide +kernel
    have := this c hc
    have : Buf.out.base = 0x6000 := rfl
    omega

theorem witness_StepKeepsConfiguration : ∃ t, step (busyToy .hash) = .next t := step_next _

theorem witness_InputBuffersAreNeverWrittenByCommands :
    (∃ t, exec (.encode .fresh) enc1 = .next t) ∧ 4096 ≤ 4096 := ⟨exec_answers _ _, le_rfl⟩

theorem witness_DecodeEncodeRoundTrip : decodeCmd 0x00000101 = .legal (.encode .seedBuf) := by decide

end Sys2Proof.Tests
end

section
/-! Big-endian integers and the byte length of a modulus (R17, R21, R22). -/
namespace Sys2Proof.Machine

/-- The model's reading of a byte string (R17) in Mathlib's terms, whose digit lists begin with the least significant. -/
theorem bigEndian_eq_ofDigits (x : List Byte) :
    bigEndian x = Nat.ofDigits 256 (x.map (·.toNat)).reverse := by
  rw [Nat.ofDigits_eq_foldr, List.foldr_reverse, List.foldl_map, bigEndian]
  congr with acc b
  simp [Nat.mul_comm, Nat.add_comm]

theorem bigEndian_lt_two_pow (x : List Byte) : bigEndian x < 2 ^ (8 * x.length) := by
  have hdigit : ∀ d ∈ (x.map (·.toNat)).reverse, d < 256 := by
    intro d hd
    obtain ⟨b, -, rfl⟩ := List.mem_map.mp (List.mem_reverse.mp hd)
    exact b.isLt
  have hlt := Nat.ofDigits_lt_base_pow_length (by decide : 1 < 256) hdigit
  rw [List.length_reverse, List.length_map, ← bigEndian_eq_ofDigits] at hlt
  rwa [Nat.pow_mul]

@[simp] theorem bigEndian_zero_cons (x : List Byte) : bigEndian (0x00 :: x) = bigEndian x := rfl

theorem modulusBytes_sub_one (n : Nat) : modulusBytes n - 1 = Nat.log2 n / 8 := by
  unfold modulusBytes ceilDiv
  omega

/-- The lower half of R21's definition: a modulus of k bytes has a bit set in its first byte. -/
theorem two_pow_le_of_modulusBytes {n : Nat} (hn : 1 ≤ n) : 2 ^ (8 * (modulusBytes n - 1)) ≤ n := by
  rw [modulusBytes_sub_one]
  calc 2 ^ (8 * (Nat.log2 n / 8)) ≤ 2 ^ Nat.log2 n := Nat.pow_le_pow_right (by decide) (Nat.mul_div_le _ _)
    _ ≤ n := Nat.log2_self_le (Nat.one_le_iff_ne_zero.mp hn)

/-- Settles O23: after the leading 0x00 only k − 1 bytes count, and n has at least 8(k − 1) + 1 bits. -/
theorem leadingZeroKeepsBelowModulus : Obligations.LeadingZeroKeepsBelowModulus := by
  intro n em hn hlen hfirst
  have hmod := two_pow_le_of_modulusBytes hn
  have hem : bigEndian em < 2 ^ (8 * (modulusBytes n - 1)) := by
    obtain ⟨rest, rfl⟩ := List.head?_eq_some_iff.mp (List.head?_eq_getElem? ▸ hfirst)
    rw [bigEndian_zero_cons, ← hlen]
    exact bigEndian_lt_two_pow rest
  exact ⟨hmod, hem, hem.trans_le hmod⟩

end Sys2Proof.Machine
end

section
/-! The invariant of the block: it holds at reset, and each operation of the port, of the core and of the reset input
keeps it (R65, R85, R100, R211 to R215). -/
namespace Sys2Proof.Machine

/-! ### Where a string written into a buffer lands -/

theorem inBuffers_replace {p : Params} {m : Memory} {b : Buf} {o : Nat} {bs : List Byte}
    (h : ∀ c ∈ m, inBuffers p c.1) (hfit : o + bs.length ≤ b.cap p) :
    ∀ c ∈ m.replace (b.base + o) bs, inBuffers p c.1 := by
  intro c hc
  rcases Memory.mem_replace hc with hold | ⟨hlo, hhi⟩
  · exact h c hold
  · exact ⟨b, by omega, by omega⟩

theorem read_replace_otherBuf (c : Cfg) {m : Memory} {b b' : Buf} {o i : Nat} {bs : List Byte} (hb : b ≠ b')
    (hfit : o + bs.length ≤ b.cap c.params) (hi : i < 4096) :
    (m.replace (b.base + o) bs).read (b'.base + i) = m.read (b'.base + i) := by
  refine Memory.read_replace_outside ?_
  rcases base_disjoint (c := c) hb with hbefore | hafter <;> omega

/-! ### The invariant under a change of few fields -/

/-- The model's own fields but rst are free: no clause speaks of them, and a reset keeps them. -/
theorem Inv.modelFields {s : State} (h : Inv s) (inputs : List Input) (answer : Option Answer) (draws : Nat) :
    Inv { s with inputs := inputs, answer := answer, draws := draws } :=
  { h with
    rstHeld := fun hr =>
      congrArg (fun u : State => { u with inputs := inputs, answer := answer, draws := draws }) (h.rstHeld hr) }

/-- With rst low, a state with the same buffers and OUT_LEN has the invariant once its recorded outcome is in order. -/
theorem Inv.of_sameBuffers {s t : State} (h : Inv s) (hcfg : t.cfg = s.cfg) (hmem : t.mem = s.mem)
    (hlen : t.outLen = s.outLen) (hrst : t.rst = false) (hlegal : legalOutcome t.errCode t.errDetail = true)
    (hclean : ∀ i, t.seq = .busy i → t.done = false ∧ t.errCode = 0 ∧ t.errDetail = 0) : Inv t where
  memWf := hmem ▸ h.memWf
  memInBuffers := by rw [hmem, hcfg]; exact h.memInBuffers
  outcomeLegal := hlegal
  busyClean := hclean
  outLenFits := by rw [hlen, hcfg]; exact h.outLenFits
  outTail := by rw [hlen, hcfg, hmem]; exact h.outTail
  rstHeld := fun hr => absurd (hrst.symm.trans hr) Bool.false_ne_true

/-! ### Reset -/

/-- The reset state has the invariant, at either level of rst (R240, R241). -/
theorem inv_resetArch (s : State) (level : Bool) : Inv { s.resetArch with rst := level } where
  memWf := rfl
  memInBuffers := fun _ hc => absurd hc List.not_mem_nil
  outcomeLegal := rfl
  busyClean := fun _ hi => nomatch hi
  outLenFits := Nat.zero_le _
  outTail := fun _ _ _ => rfl
  rstHeld := fun _ => rfl

theorem inv_resetWith (c : Cfg) : Inv (State.resetWith c) := inv_resetArch (State.resetWith c) false

theorem Inv.driveRst {s : State} (h : Inv s) (level : Bool) : Inv (s.driveRst level) := by
  by_cases hl : s.rst = level
  · rw [State.driveRst_same hl]; exact h
  · rw [State.driveRst_change hl]; exact inv_resetArch s level

/-! ### Completion -/

/-- No finish records a reserved code or detail (R211 to R214). -/
theorem Finish.outcome_legal (f : Finish) : legalOutcome f.errCode f.errDetail = true := by
  cases f with
  | ok r => rfl
  | err e =>
    cases e with
    | length d => cases d <;> rfl
    | decryption => rfl

theorem outLen_complete_out (s : State) {f : Finish} (hf : f.result.length ≤ s.cfg.params.outMax) :
    (s.complete .out f).outLen.toNat = f.result.length := by
  have hcap : s.cfg.params.outMax ≤ 4096 := cap_le s.cfg .out
  rw [State.complete_out_outLen, BitVec.toNat_ofNat, Nat.mod_eq_of_lt (by omega)]

theorem outLen_complete_other (s : State) {o : OutPair} (f : Finish) (ho : o ≠ .out) :
    (s.complete o f).outLen = s.outLen := by
  cases o with
  | em => rfl
  | msg => rfl
  | out => exact absurd rfl ho

/-- A completion keeps the two clauses on OUT_BUF: its own pair is rewritten whole, another pair leaves it alone. -/
theorem Inv.outBuf_complete {s : State} (h : Inv s) {o : OutPair} {f : Finish}
    (hf : f.result.length ≤ o.buf.cap s.cfg.params) :
    (s.complete o f).outLen.toNat ≤ s.cfg.params.outMax ∧
    ∀ i, (s.complete o f).outLen.toNat ≤ i → i < s.cfg.params.outMax →
      (s.complete o f).mem.read (Buf.out.base + i) = 0 := by
  by_cases ho : o = .out
  · subst ho
    rw [outLen_complete_out s hf]
    exact ⟨hf, fun i hlo hhi => read_complete_tail hlo hhi⟩
  · have hbuf : o.buf ≠ .out := by
      cases o with
      | em | msg => decide
      | out => exact absurd rfl ho
    rw [outLen_complete_other s f ho]
    refine ⟨h.outLenFits, fun i hlo hhi => ?_⟩
    have hcap : s.cfg.params.outMax ≤ 4096 := cap_le s.cfg .out
    have hdisjoint := base_disjoint (c := s.cfg) hbuf
    rw [read_complete_outside hf (by omega)]
    exact h.outTail i hlo hhi

theorem Inv.complete {s : State} (h : Inv s) (hr : s.rst = false) {o : OutPair} {f : Finish}
    (hf : f.result.length ≤ o.buf.cap s.cfg.params) : Inv (s.complete o f) where
  memWf := wf_complete h.memWf o f
  memInBuffers := by
    rw [State.complete_mem, State.complete_cfg]
    exact inBuffers_replace (b := o.buf) (o := 0) h.memInBuffers (by rw [complete_string_length hf, Nat.zero_add])
  outcomeLegal := by simpa using f.outcome_legal
  busyClean := fun i hi => nomatch (State.complete_seq s o f).symm.trans hi
  outLenFits := by simpa using (h.outBuf_complete hf).1
  outTail := by simpa using (h.outBuf_complete hf).2
  rstHeld := fun ht => absurd (hr.symm.trans ((State.complete_rst s o f).symm.trans ht)) Bool.false_ne_true

theorem Inv.exec {s t : State} (h : Inv s) (hr : s.rst = false) {i : Instr} (ht : exec i s = .next t) : Inv t := by
  rw [exec_eq] at ht
  obtain rfl : _ = t := Host.Outcome.next.inj ht
  have hbefore : Inv (beforeCommit i s) := by
    rw [beforeCommit_eq]; exact h.modelFields s.inputs s.answer _
  exact hbefore.complete (by rw [beforeCommit_eq]; exact hr)
    (by rw [cap_beforeCommit]; exact finishOf_fits i s)

/-! ### Transactions -/

theorem unlessBusy_idle {s : State} (hs : s.seq = .idle) (u : State) : s.unlessBusy u = u := by
  rw [State.unlessBusy, if_neg (by simp [hs])]

theorem unlessBusy_busy {s : State} (hs : s.seq ≠ .idle) (u : State) : s.unlessBusy u = s.violate :=
  if_pos (busy_of_ne_idle hs)

theorem hostWritable_iff (b : Buf) : b.hostWritable = true ↔ b ≠ .out := by cases b <;> decide

/-- Acceptance clears the outcome, or records ILLEGAL_COMMAND and stays IDLE (R215). -/
theorem Inv.acceptCommand {s : State} (h : Inv s) (hr : s.rst = false) (hs : s.seq = .idle) (v : Word) :
    Inv (s.acceptCommand v) := by
  cases hd : decodeCmd v with
  | legal i =>
    rw [acceptCommand_legal hd]
    exact h.of_sameBuffers rfl rfl rfl hr rfl fun _ _ => ⟨rfl, rfl, rfl⟩
  | illegal r =>
    rw [acceptCommand_illegal hd]
    refine h.of_sameBuffers rfl rfl rfl hr (by cases r <;> rfl) fun i hi => ?_
    exact nomatch hs.symm.trans hi

section
variable {s : State} (h : Inv s) (hr : s.rst = false)
include h hr

theorem Inv.violate : Inv s.violate := h.of_sameBuffers rfl rfl rfl hr h.outcomeLegal h.busyClean

theorem Inv.unlessBusy {u : State} (hu : s.seq = .idle → Inv u) : Inv (s.unlessBusy u) := by
  by_cases hs : s.seq = .idle
  · rw [unlessBusy_idle hs]; exact hu hs
  · rw [unlessBusy_busy hs]; exact h.violate hr

theorem Inv.writeStatus (v : Word) : Inv (s.writeStatus v) := by
  refine h.of_sameBuffers rfl rfl rfl hr h.outcomeLegal fun i hi => ?_
  obtain ⟨hdone, hcode, hdetail⟩ := h.busyClean i hi
  exact ⟨by simp [hdone], hcode, hdetail⟩

theorem Inv.writeReg (r : RegName) (v : Word) : Inv (s.writeReg r v) := by
  cases r with
  | id | version | paramHlen | paramKmax | paramLmax | paramInmax | paramOutmax | outLen => exact h
  | ctrl =>
    simp only [State.writeReg]
    split
    · exact inv_resetArch s s.rst
    · exact h.of_sameBuffers rfl rfl rfl hr h.outcomeLegal h.busyClean
  | cmd => exact h.unlessBusy hr fun hs => h.acceptCommand hr hs v
  | status => exact h.writeStatus hr v
  | k | msgLen | labelLen | emLen | inLen | maskLen =>
    exact h.unlessBusy hr fun _ => h.of_sameBuffers rfl rfl rfl hr h.outcomeLegal h.busyClean

/-- A string that fits a buffer other than OUT_BUF keeps every clause. -/
theorem Inv.writeBuf {b : Buf} {o : Nat} {bs : List Byte} (hb : b ≠ .out)
    (hfit : o + bs.length ≤ b.cap s.cfg.params) : Inv (s.writeBuf b o bs) :=
  { h with
    memWf := wf_writeBuf h.memWf b o bs
    memInBuffers := inBuffers_replace h.memInBuffers hfit
    outTail := fun i hlo hhi =>
      (read_replace_otherBuf s.cfg hb hfit (hhi.trans_le (cap_le s.cfg .out))).trans (h.outTail i hlo hhi)
    rstHeld := fun ht => absurd (hr.symm.trans ht) Bool.false_ne_true }

theorem Inv.writeWindow {b : Buf} {o : Nat} (ho : o < b.cap s.cfg.params) (v : Word) :
    Inv (s.writeWindow b o v) := by
  unfold State.writeWindow
  split
  · rename_i hw
    refine h.unlessBusy hr fun _ => h.writeBuf hr ((hostWritable_iff b).1 hw) ?_
    have := List.length_take_le (b.cap s.cfg.params - o) (bytesOfWord v)
    omega
  · exact h

theorem Inv.memWrite (off : Nat) (v : Word) : Inv (s.memWrite off v) := by
  rcases memWrite_cases s off v with he | ⟨r, -, he⟩ | ⟨b, o, -, ho, he⟩
  · rw [he]; exact h.modelFields s.inputs _ s.draws
  · rw [he]; exact (h.writeReg hr r v).modelFields _ _ _
  · rw [he]; exact (h.writeWindow hr ho v).modelFields _ _ _

theorem Inv.serve (t : Transaction) : Inv (s.serve t) := by
  unfold State.serve
  split
  · split
    · obtain ⟨a, n, he, -⟩ := memRead_eq s t.off.toNat
      rw [he]; exact h.modelFields s.inputs _ _
    · exact h.memWrite hr _ _
  · exact h.modelFields s.inputs _ s.draws

end

theorem Inv.port {s : State} (h : Inv s) (t : Transaction) : Inv (s.port t) := by
  unfold State.port
  split
  · exact h.modelFields s.inputs none s.draws
  · rename_i hr
    exact h.serve (Bool.eq_false_iff.2 hr) t

/-! ### The step -/

theorem Inv.withInputs {s : State} (h : Inv s) (inputs : List Input) : Inv { s with inputs := inputs } :=
  h.modelFields inputs s.answer s.draws

/-- Settles O58, by the kinds of a step: a completion, a rest, a transaction, a move of rst. -/
theorem stepKeepsInvariant : Obligations.StepKeepsInvariant := by
  intro s t h hstep
  rcases step_cases hstep with ⟨i, -, hr, -, hexec⟩ | ⟨-, -, rfl⟩ | ⟨tr, rest, -, rfl⟩ | ⟨l, rest, -, rfl⟩
  · exact (h.withInputs s.inputs.tail).exec hr hexec
  · exact h.withInputs _
  · exact (h.withInputs rest).port tr
  · exact (h.withInputs rest).driveRst l

/-- Settles O56: every byte and register is 0 at reset. -/
theorem invariantHoldsAtReset : Obligations.InvariantHoldsAtReset :=
  ⟨inv_resetWith Cfg.uninterpreted, inv_resetWith⟩

end Sys2Proof.Machine
end

section
/-! The configuration, which no step changes, and the buffers that no command writes (R61, R62, R64, R69). -/
namespace Sys2Proof.Machine

theorem serve_cfg (s : State) (t : Transaction) : (s.serve t).cfg = s.cfg := by
  unfold State.serve
  split
  · split
    · obtain ⟨a, n, he, -⟩ := memRead_eq s t.off.toNat
      rw [he]
    · rcases memWrite_cases s t.off.toNat t.wdata with he | ⟨r, -, he⟩ | ⟨b, o, -, -, he⟩
      · rw [he]
      · rw [he]; exact (writeReg_kept s r t.wdata).1
      · obtain ⟨m, f, hw⟩ := writeWindow_kept s b o t.wdata
        rw [he, hw]
  · rfl

theorem port_cfg (s : State) (t : Transaction) : (s.port t).cfg = s.cfg := by
  unfold State.port
  split
  · rfl
  · exact serve_cfg s t

theorem exec_cfg {i : Instr} {s t : State} (h : exec i s = .next t) : t.cfg = s.cfg := by
  rw [exec_eq] at h
  obtain rfl : _ = t := Host.Outcome.next.inj h
  rw [State.complete_cfg, beforeCommit_eq]

theorem step_cfg {s t : State} (h : step s = .next t) : t.cfg = s.cfg := by
  rcases step_cases h with ⟨i, -, -, -, hexec⟩ | ⟨-, -, rfl⟩ | ⟨tr, rest, -, rfl⟩ | ⟨l, rest, -, rfl⟩
  · exact exec_cfg (s := { s with inputs := s.inputs.tail }) hexec
  · rfl
  · exact port_cfg _ tr
  · exact State.driveRst_cfg _ l

/-- Settles O59: the constant registers read `cfg` alone, and no step changes it. -/
theorem stepKeepsConfiguration : Obligations.StepKeepsConfiguration := by
  intro s t h
  have hcfg := step_cfg h
  refine ⟨hcfg, ?_⟩
  simp [State.readReg, hcfg]

/-- A command leaves every buffer but the one of its output pair as it was (R217, R218). -/
theorem exec_slice_other {i : Instr} {s t : State} (h : exec i s = .next t) {b : Buf} {n : Nat}
    (hb : (outPairOf i).buf ≠ b) (hn : n ≤ 4096) : t.slice b n = s.slice b n := by
  obtain ⟨-, -, houtside⟩ := exec_reads h
  refine Memory.readBytes_congr fun j hj => houtside _ ?_
  rcases base_disjoint (c := s.cfg) hb with hafter | hbefore <;> omega

theorem outPairOf_buf_cases (i : Instr) :
    (outPairOf i).buf = .em ∨ (outPairOf i).buf = .msg ∨ (outPairOf i).buf = .out := by
  cases i with
  | encode src => exact .inl rfl
  | decode => exact .inr (.inl rfl)
  | mgf1 => exact .inr (.inr rfl)
  | hash => exact .inr (.inr rfl)

/-- Settles O60: no output pair has an input buffer. -/
theorem inputBuffersAreNeverWrittenByCommands : Obligations.InputBuffersAreNeverWrittenByCommands := by
  intro i s t h b hb n hn
  refine exec_slice_other h (fun he => ?_) hn
  rcases outPairOf_buf_cases i with ho | ho | ho <;> rw [← he, ho] at hb <;> exact absurd hb (by decide)

end Sys2Proof.Machine
end

section
/-! The flags: the bits of the STATUS word (R49 to R56) and irq (R58). -/
namespace Sys2Proof.Machine

theorem getLsbD_bitAt (b : Bool) (n : Nat) {i : Nat} (hi : i < 32) :
    (bitAt b n).getLsbD i = (decide (i = n) && b) := by
  simp only [bitAt, BitVec.getLsbD_shiftLeft, BitVec.getLsbD_setWidth, BitVec.getLsbD_ofBool, hi]
  rcases Nat.lt_trichotomy i n with hlt | rfl | hgt
  · simp [hlt, hlt.ne]
  · simp
  · simp [show ¬ i < n by omega, show ¬ i = n by omega, show ¬ i - n = 0 by omega]

theorem getLsbD_fieldAt (f : BitVec 4) (n : Nat) {i : Nat} (hi : i < 32) :
    (fieldAt f n).getLsbD i = (decide (n ≤ i) && f.getLsbD (i - n)) := by
  simp only [fieldAt, BitVec.getLsbD_shiftLeft, BitVec.getLsbD_setWidth, hi, show i - n < 32 by omega,
    decide_true, Bool.true_and]
  by_cases hn : i < n
  · simp [hn]
  · simp [hn, Nat.not_lt.1 hn]

/-- The layout of STATUS, bit by bit (R49). -/
theorem statusWord_getLsbD (s : State) {i : Nat} (hi : i < 32) :
    s.statusWord.getLsbD i =
      (decide (i = 0) && s.busy || decide (i = 1) && s.done || decide (i = 2) && s.err ||
        decide (8 ≤ i) && s.errCode.getLsbD (i - 8) || decide (16 ≤ i) && s.errDetail.getLsbD (i - 16) ||
        decide (i = 24) && s.busyViol) := by
  simp only [State.statusWord, BitVec.getLsbD_or, getLsbD_bitAt _ _ hi, getLsbD_fieldAt _ _ hi]

theorem busy_eq_decide (s : State) : s.busy = decide (s.seq ≠ .idle) := by
  unfold State.busy
  cases s.seq <;> rfl

theorem extractLsb'_eq_of_getLsbD {v : Word} {start len : Nat} {f : BitVec len}
    (hbit : ∀ j < len, v.getLsbD (start + j) = f.getLsbD j) : v.extractLsb' start len = f := by
  refine BitVec.eq_of_getLsbD_eq fun j hj => ?_
  rw [BitVec.getLsbD_extractLsb', hbit j hj, decide_eq_true hj, Bool.true_and]

/-- The bits of STATUS outside every field (R56). -/
def reservedStatusBit (i : Nat) : Prop := 3 ≤ i ∧ i < 8 ∨ 12 ≤ i ∧ i < 16 ∨ 20 ≤ i ∧ i < 24 ∨ 25 ≤ i ∧ i < 32

theorem statusWord_reserved (s : State) {i : Nat} (h : reservedStatusBit i) : s.statusWord.getLsbD i = false := by
  unfold reservedStatusBit at h
  rw [statusWord_getLsbD s (by omega)]
  have hcode : 8 ≤ i → s.errCode.getLsbD (i - 8) = false := fun _ => BitVec.getLsbD_of_ge _ _ (by omega)
  have hdetail : 16 ≤ i → s.errDetail.getLsbD (i - 16) = false := fun _ => BitVec.getLsbD_of_ge _ _ (by omega)
  simp only [show i ≠ 0 by omega, show i ≠ 1 by omega, show i ≠ 2 by omega, show i ≠ 24 by omega, decide_false,
    Bool.false_and, Bool.false_or, Bool.or_false]
  by_cases h8 : 8 ≤ i <;> by_cases h16 : 16 ≤ i <;> simp [h8, h16, hcode, hdetail]

theorem statusWord_extract_reserved (s : State) {start len : Nat} (h : ∀ j < len, reservedStatusBit (start + j)) :
    s.statusWord.extractLsb' start len = 0 :=
  extractLsb'_eq_of_getLsbD fun j hj => (statusWord_reserved s (h j hj)).trans BitVec.getLsbD_zero.symm

theorem statusWord_errCode (s : State) : s.statusWord.extractLsb' 8 4 = s.errCode := by
  refine extractLsb'_eq_of_getLsbD fun j hj => ?_
  rw [statusWord_getLsbD s (by omega)]
  simp [show 8 + j ≠ 1 by omega, show 8 + j ≠ 2 by omega, show 8 + j ≠ 24 by omega, show ¬ 16 ≤ 8 + j by omega]

theorem statusWord_errDetail (s : State) : s.statusWord.extractLsb' 16 4 = s.errDetail := by
  refine extractLsb'_eq_of_getLsbD fun j hj => ?_
  have hcode : s.errCode.getLsbD (16 + j - 8) = false := BitVec.getLsbD_of_ge _ _ (by omega)
  rw [statusWord_getLsbD s (by omega), hcode]
  simp [show 16 + j ≠ 1 by omega, show 16 + j ≠ 2 by omega, show 16 + j ≠ 24 by omega]

theorem statusWord_busy (s : State) : s.statusWord.getLsbD 0 = decide (s.seq ≠ .idle) := by
  rw [statusWord_getLsbD s (by decide), busy_eq_decide]
  simp

theorem statusWord_err (s : State) : s.statusWord.getLsbD 2 = decide (s.errCode ≠ 0) := by
  rw [statusWord_getLsbD s (by decide), State.err]
  simp

theorem statusWord_busyViol (s : State) : s.statusWord.getLsbD 24 = s.busyViol := by
  rw [statusWord_getLsbD s (by decide)]
  simp

/-- Settles O35: each field and each reserved gap of the layout of R49. -/
theorem statusWordFields : Obligations.StatusWordFields := fun s =>
  ⟨statusWord_busy s, statusWord_done s, statusWord_err s,
    statusWord_extract_reserved s fun j hj => .inl (by omega), statusWord_errCode s,
    statusWord_extract_reserved s fun j hj => .inr (.inl (by omega)), statusWord_errDetail s,
    statusWord_extract_reserved s fun j hj => .inr (.inr (.inl (by omega))), statusWord_busyViol s,
    statusWord_extract_reserved s fun j hj => .inr (.inr (.inr (by omega)))⟩

theorem State.irq_eq_true (s : State) : s.irq = true ↔ s.done = true ∧ s.irqEn = true := Bool.and_eq_true_iff

theorem State.irq_of_done {s : State} (h : s.done = true) : s.irq = s.irqEn := by
  rw [State.irq, h, Bool.true_and]

/-- A completion sets DONE and leaves IRQ_EN alone (R216). -/
theorem exec_done_irqEn {i : Instr} {s t : State} (h : exec i s = .next t) : t.done = true ∧ t.irqEn = s.irqEn := by
  rw [exec_eq] at h
  obtain rfl : _ = t := Host.Outcome.next.inj h
  rw [State.complete_done, State.complete_irqEn, beforeCommit_eq]
  exact ⟨rfl, rfl⟩

/-- An illegal command word is answered at once, with DONE and ILLEGAL_COMMAND (R215). -/
theorem serve_illegal_command {s : State} {v : Word} {r : IllegalReason} (hs : s.seq = .idle)
    (hd : decodeCmd v = .illegal r) : s.serve (writeOf 0x024 v) =
      { s with done := true, errCode := illegalCommand, errDetail := r.detail, answer := some .written } := by
  have hserve := serve_write_reg s .cmd v
  rwa [State.writeReg, unlessBusy_idle hs, acceptCommand_illegal hd] at hserve

/-- Settles O52: a completion and an illegal word both set DONE, and neither changes IRQ_EN. -/
theorem completionRaisesIrqWhenEnabled : Obligations.CompletionRaisesIrqWhenEnabled := by
  refine ⟨State.irq_eq_true, fun i s t h => ?_, fun s v r hs hd => ?_⟩
  · obtain ⟨hdone, hen⟩ := exec_done_irqEn h
    rw [State.irq_of_done hdone, hen]
  · rw [serve_illegal_command hs hd]
    exact State.irq_of_done rfl

end Sys2Proof.Machine
end

section
/-! Registers at the port, by offset (R32 to R49, R55, R65, R89 to R91), and their values at reset (R70). -/
namespace Sys2Proof.Machine

/-- A read ignores the write data of its transaction (R81). -/
theorem serve_read_offset (s : State) (r : RegName) (w : Word) :
    s.serve ⟨.read, BitVec.ofNat 16 r.offset, .four, w⟩ = { s with answer := some (.read (s.readReg r)) } :=
  serve_read_reg s r

theorem ctrlWord_eq (s : State) : s.ctrlWord = if s.irqEn then 1 else 0 := by
  unfold State.ctrlWord
  cases s.irqEn <;> rfl

/-- Settles O34: the seventeen offsets are those of the registers. -/
theorem registerReadsByOffset : Obligations.RegisterReadsByOffset := by
  intro s
  have hread := serve_read_offset s
  refine ⟨hread .id, hread .version, hread .paramHlen, hread .paramKmax, hread .paramLmax, hread .paramInmax,
    hread .paramOutmax, ?_, hread .cmd, hread .status, hread .k, hread .msgLen, hread .labelLen, hread .emLen,
    hread .inLen, hread .maskLen, hread .outLen⟩
  rw [← ctrlWord_eq]
  exact hread .ctrl

/-- The registers that ignore every write (R90). -/
def RegName.readOnly : List RegName :=
  [.id, .version, .paramHlen, .paramKmax, .paramLmax, .paramInmax, .paramOutmax, .outLen]

theorem writeReg_readOnly (s : State) {r : RegName} (hr : r ∈ RegName.readOnly) (v : Word) : s.writeReg r v = s := by
  cases r with
  | id | version | paramHlen | paramKmax | paramLmax | paramInmax | paramOutmax | outLen => rfl
  | ctrl | cmd | status | k | msgLen | labelLen | emLen | inLen | maskLen => exact absurd hr (by decide)

/-- The registers a command reads as it is accepted or completes: a write while BUSY is dropped (R55). -/
def RegName.commandInput : List RegName := [.cmd, .k, .msgLen, .labelLen, .emLen, .inLen, .maskLen]

theorem writeReg_commandInput_busy {s : State} (hs : s.seq ≠ .idle) {r : RegName} (hr : r ∈ RegName.commandInput)
    (v : Word) : s.writeReg r v = s.violate := by
  cases r with
  | cmd | k | msgLen | labelLen | emLen | inLen | maskLen => exact unlessBusy_busy hs _
  | id | version | paramHlen | paramKmax | paramLmax | paramInmax | paramOutmax | ctrl | status | outLen =>
    exact absurd hr (by decide)

theorem writeStatus_eq (s : State) (v : Word) : s.writeStatus v =
    { s with
      done := if v.getLsbD 1 then false else s.done
      busyViol := if v.getLsbD 24 then false else s.busyViol } := by
  unfold State.writeStatus
  cases v.getLsbD 1 <;> cases v.getLsbD 24 <;> simp

/-- Settles O40, by the region an offset is in and the register's own write. -/
theorem registerWritesByOffset : Obligations.RegisterWritesByOffset := by
  intro s v
  refine ⟨?_, fun o ho halign => serve_write_window (b := .out) v ho halign, fun hs => ?_, ?_⟩
  · show ∀ off ∈ RegName.readOnly.map RegName.offset, s.serve (writeOf off v) = { s with answer := some .written }
    refine List.forall_mem_map.2 fun r hr => ?_
    rw [serve_write_reg, writeReg_readOnly s hr]
  · have hwrite : ∀ (r : RegName) (u : State), s.writeReg r v = s.unlessBusy u →
        s.serve (writeOf r.offset v) = { u with answer := some .written } := fun r u hu => by
      rw [serve_write_reg, hu, unlessBusy_idle hs]
    exact ⟨hwrite .k _ rfl, hwrite .msgLen _ rfl, hwrite .labelLen _ rfl, hwrite .emLen _ rfl, hwrite .inLen _ rfl,
      hwrite .maskLen _ rfl⟩
  · have hstatus := serve_write_reg s .status v
    rwa [State.writeReg, writeStatus_eq] at hstatus

/-- Settles O41: a command input at a register or in a host-writable window. -/
theorem busyWritesAreDropped : Obligations.BusyWritesAreDropped := by
  intro s v hs
  refine ⟨?_, fun b o hb ho halign => ?_⟩
  · show ∀ off ∈ RegName.commandInput.map RegName.offset,
      s.serve (writeOf off v) = { s with busyViol := true, answer := some .written }
    refine List.forall_mem_map.2 fun r hr => ?_
    rw [serve_write_reg, writeReg_commandInput_busy hs hr]
    rfl
  · rw [serve_write_window v ho halign, writeWindow_busy (busy_of_ne_idle hs), if_pos ((hostWritable_iff b).2 hb)]
    rfl

theorem slice_resetWith (c : Cfg) (b : Buf) (n : Nat) : (State.resetWith c).slice b n = List.replicate n 0x00 :=
  List.map_const'.trans (by rw [List.length_range]; rfl)

theorem statusWord_resetWith (c : Cfg) : (State.resetWith c).statusWord = 0 := by
  simp [State.statusWord, State.resetWith, State.busy, State.err, bitAt, fieldAt]

/-- Settles O48: the fields are the literals of R70's table, and an empty memory reads 0x00. -/
theorem resetValues : Obligations.ResetValues := fun c =>
  ⟨rfl, rfl, rfl, rfl, rfl, rfl, rfl, rfl, rfl, rfl, rfl, rfl, rfl, rfl, slice_resetWith c, statusWord_resetWith c, rfl⟩

end Sys2Proof.Machine
end

section
/-! The address map from outside the block, and one transaction by what it asks for (R80 to R84, R93, R95). -/
namespace Sys2Proof.Machine

/-! ### Bus addresses (R80) -/

theorem offsetOf_eq_some_iff {p : Params} {addr : Nat} {off : BitVec 16} :
    offsetOf p addr = some off ↔ addr = busAddress p off := by
  have hoff := off.isLt
  unfold offsetOf busAddress
  split
  · rw [Option.some_inj, ← BitVec.toNat_inj, BitVec.toNat_ofNat]
    omega
  · simp only [reduceCtorEq, false_iff]
    omega

theorem offsetOf_eq_none_iff {p : Params} {addr : Nat} :
    offsetOf p addr = none ↔ addr < p.base ∨ p.base + 0x10000 ≤ addr := by
  rw [offsetOf, ite_eq_right_iff]
  simp only [reduceCtorEq, imp_false]
  omega

/-- Settles O43: an address of the page determines its offset. -/
theorem busAddressesAreOffsetsFromBase : Obligations.BusAddressesAreOffsetsFromBase := fun _ _ _ =>
  ⟨offsetOf_eq_some_iff.2 rfl, offsetOf_eq_some_iff, offsetOf_eq_none_iff⟩

/-! ### The dispatch of a transaction (R81, R82) -/

theorem port_of_rst_low {s : State} (hr : s.rst = false) (t : Transaction) : s.port t = s.serve t := by
  rw [State.port, hr, if_neg Bool.false_ne_true]

theorem serve_unsupported (s : State) {t : Transaction} (h : t.supported = false) :
    s.serve t = { s with answer := some .err } := by
  rw [State.serve, h, if_neg Bool.false_ne_true]

theorem serve_read (s : State) {t : Transaction} (h : t.supported = true) (hk : t.kind = .read) :
    s.serve t = s.memRead t.off.toNat := by
  rw [State.serve, if_pos h, hk]

theorem serve_write (s : State) {t : Transaction} (h : t.supported = true) (hk : t.kind = .write) :
    s.serve t = s.memWrite t.off.toNat t.wdata := by
  rw [State.serve, if_pos h, hk]

/-- Settles O7: with rst low the port serves what it is given. -/
theorem stepServesTheNextTransaction : Obligations.StepServesTheNextTransaction := by
  intro s t rest hin hr
  rw [step_transact hin, port_of_rst_low (s := { s with inputs := rest }) hr]

theorem supported_eq_false_iff (t : Transaction) :
    t.supported = false ↔ t.size ≠ .four ∨ t.off.toNat % 4 ≠ 0 := by
  simp only [Transaction.supported, Bool.and_eq_false_iff, decide_eq_false_iff_not, ne_eq]

/-- Settles O32: such a transaction is not supported. -/
theorem narrowOrMisalignedHasNoEffect : Obligations.NarrowOrMisalignedHasNoEffect := fun s t h =>
  serve_unsupported s ((supported_eq_false_iff t).2 h)

/-! ### Unmapped offsets (R84) -/

/-- An offset that is no register's and no buffer byte's is unmapped. -/
theorem locate_eq_unmapped {p : Params} {off : Nat} (hreg : ∀ r : RegName, off ≠ r.offset)
    (hwin : ∀ (b : Buf) (o : Nat), off = b.base + o → b.cap p ≤ o) : locate p off = .unmapped := by
  cases hl : locate p off with
  | reg r => exact absurd (locate_eq_reg hl) (hreg r)
  | window b o =>
    obtain ⟨hoff, ho⟩ := locate_eq_window hl
    exact absurd ho (hwin b o hoff).not_gt
  | unmapped => rfl

theorem locate_above_windows (c : Cfg) {off : Nat} (h : 0x7000 ≤ off) : locate c.params off = .unmapped := by
  refine locate_eq_unmapped (fun r => ?_) fun b o hoff => ?_
  · have := r.offset_lt
    omega
  · have := b.base_le
    have := cap_le c b
    omega

theorem locate_register_hole {p : Params} {off : Nat} (h : off < 0x1000) (hreg : ∀ r : RegName, r.offset ≠ off) :
    locate p off = .unmapped := by
  refine locate_eq_unmapped (fun r => (hreg r).symm) fun b o hoff => ?_
  have := b.le_base
  omega

theorem locate_beyond_capacity (c : Cfg) {b : Buf} {off : Nat} (hlo : b.base ≤ off) (hhi : off < b.base + 0x1000)
    (hcap : b.cap c.params ≤ off - b.base) : locate c.params off = .unmapped := by
  refine locate_eq_unmapped (fun r => ?_) fun b' o hoff => ?_
  · have := r.offset_lt
    have := b.le_base
    omega
  · by_cases hb : b' = b
    · subst hb
      omega
    · have := base_disjoint (c := c) hb
      omega

theorem serve_unmapped {s : State} {t : Transaction} (h : locate s.cfg.params t.off.toNat = .unmapped) :
    s.serve t = { s with answer := some .err } := by
  cases hsup : t.supported with
  | false => exact serve_unsupported s hsup
  | true =>
    cases hk : t.kind with
    | read => rw [serve_read s hsup hk, State.memRead, h]
    | write => rw [serve_write s hsup hk, State.memWrite, h]

/-- Settles O33, by the three kinds of an unmapped offset. -/
theorem unmappedHasNoEffect : Obligations.UnmappedHasNoEffect := by
  rintro s t (habove | ⟨hpage, hreg⟩ | ⟨b, hlo, hhi, hcap⟩)
  · exact serve_unmapped (locate_above_windows s.cfg habove)
  · exact serve_unmapped (locate_register_hole hpage hreg)
  · exact serve_unmapped (locate_beyond_capacity s.cfg hlo hhi hcap)

/-! ### Reads (R93) -/

theorem memRead_idle {s : State} (hs : s.seq = .idle) (off : Nat) :
    ∃ a, s.memRead off = { s with answer := some a } := by
  unfold State.memRead
  split
  · exact ⟨_, rfl⟩
  · rw [not_busy_of_idle hs, if_neg Bool.false_ne_true]
    exact ⟨_, rfl⟩
  · exact ⟨_, rfl⟩

/-- Settles O53: only a supported read of a BUSY block can draw. -/
theorem readsHaveNoSideEffect : Obligations.ReadsHaveNoSideEffect := by
  intro s t hk
  cases hsup : t.supported with
  | false => exact ⟨.err, s.draws, serve_unsupported s hsup, le_rfl, fun _ => rfl⟩
  | true =>
    rw [serve_read s hsup hk]
    by_cases hs : s.seq = .idle
    · obtain ⟨a, hread⟩ := memRead_idle hs t.off.toNat
      exact ⟨a, s.draws, hread, le_rfl, fun _ => rfl⟩
    · obtain ⟨a, n, hread, hn⟩ := memRead_eq s t.off.toNat
      exact ⟨a, n, hread, hn, fun hidle => absurd hidle hs⟩

end Sys2Proof.Machine
end

section
/-! The windows of the buffers: the lanes of a word read and of a word written (R85, R86, R89 to R91, R95, R99). -/
namespace Sys2Proof.Machine

/-- Settles O37: the busy branch of a window read. -/
theorem busyWindowReadIsFree : Obligations.BusyWindowReadIsFree := by
  intro s b o hs ho halign
  rw [serve_read_window ho halign, if_pos (busy_of_ne_idle hs)]
  rfl

theorem serve_read_window_idle {s : State} {b : Buf} {o : Nat} (hs : s.seq = .idle) (ho : o < b.cap s.cfg.params)
    (halign : o % 4 = 0) :
    s.serve (readOf (b.base + o)) = { s with answer := some (.read (s.windowWord b o)) } := by
  rw [serve_read_window ho halign, not_busy_of_idle hs, if_neg Bool.false_ne_true]

theorem serve_write_window_idle {s : State} {b : Buf} {o : Nat} (v : Word) (hs : s.seq = .idle) (hb : b ≠ .out)
    (ho : o < b.cap s.cfg.params) (halign : o % 4 = 0) :
    s.serve (writeOf (b.base + o) v) =
      { s.writeBuf b o ((bytesOfWord v).take (b.cap s.cfg.params - o)) with answer := some .written } := by
  rw [serve_write_window v ho halign, State.writeWindow, if_pos ((hostWritable_iff b).2 hb), unlessBusy_idle hs]

theorem windowWord_lane (s : State) (b : Buf) (o : Nat) {n : Nat} (h : n < 4) :
    (s.windowWord b o).extractLsb' (8 * n) 8 = s.windowByte b (o + n) := by
  rw [State.windowWord, lane_wordOfBytes _ _ _ _ h]
  have hn : n = 0 ∨ n = 1 ∨ n = 2 ∨ n = 3 := by omega
  rcases hn with rfl | rfl | rfl | rfl <;> rfl

/-- A word is determined by its lanes. -/
theorem word_eq_of_lanes {v w : Word} (h : ∀ n < 4, v.extractLsb' (8 * n) 8 = w.extractLsb' (8 * n) 8) : v = w := by
  have h0 := h 0 (by decide)
  have h1 := h 1 (by decide)
  have h2 := h 2 (by decide)
  have h3 := h 3 (by decide)
  rw [← wordOfBytes_lanes v, ← wordOfBytes_lanes w]
  exact congr (congr (congrArg₂ wordOfBytes h0 h1) h2) h3

theorem getD_take_bytesOfWord (v : Word) {n m : Nat} (h : n < 4) (hm : n < m) :
    ((bytesOfWord v).take m).getD n 0 = v.extractLsb' (8 * n) 8 := by
  rw [List.getD_eq_getElem?_getD, List.getElem?_take_of_lt hm, ← List.getD_eq_getElem?_getD, getD_bytesOfWord v h]

/-- Settles O36: lane n is the window byte o + n, which reads 0x00 as a pad byte. -/
theorem windowReadLanes : Obligations.WindowReadLanes := by
  intro s b o hs ho halign
  refine ⟨s.windowWord b o, serve_read_window_idle hs ho halign, fun n hn => ?_⟩
  rw [windowWord_lane s b o hn, State.windowByte, Nat.add_assoc]

/-- Settles O38: the bytes stored are those of the word, cut at the capacity. -/
theorem windowWriteStoresItsBytes : Obligations.WindowWriteStoresItsBytes := by
  intro s b o v hs hb ho halign
  refine ⟨_, serve_write_window_idle v hs hb ho halign, fun n hn hcap => ?_, fun a ha => ?_⟩
  · rw [State.writeBuf_mem, Memory.read_replace_inside, getD_take_bytesOfWord v hn (by omega)]
    rw [List.length_take, length_bytesOfWord]
    omega
  · refine Memory.read_replace_outside ?_
    rw [List.length_take, length_bytesOfWord]
    omega

/-- Settles O39: the word read has the lanes that were stored. -/
theorem windowReadAfterWrite : Obligations.WindowReadAfterWrite := by
  intro s b o v hs hb ho halign
  obtain ⟨m, hwrite, hstored, -⟩ := windowWriteStoresItsBytes s b o v hs hb (by omega) halign
  obtain ⟨w, hread, hlanes⟩ :=
    windowReadLanes { s with mem := m, answer := some .written } b o hs (by dsimp only; omega) halign
  have hw : w = v := word_eq_of_lanes fun n hn => by
    have hcap : o + n < b.cap s.cfg.params := by omega
    rw [hlanes n hn, if_pos hcap, hstored n hn hcap]
  rw [hwrite, hread, hw]

end Sys2Proof.Machine
end

section
/-! What stands while a command is BUSY, and what ends it (R98, R216, R222, R242, R247). -/
namespace Sys2Proof.Machine

/-! ### The state that a transaction leaves alone while BUSY -/

/-- `u` is `s` but for IRQ_EN, DONE, BUSY_VIOL and the model's own moves, answer and count of draws: the command, its
inputs and what it will write stand (R98). -/
def Held (s u : State) : Prop :=
  u = { s with
    irqEn := u.irqEn, done := u.done, busyViol := u.busyViol, inputs := u.inputs, answer := u.answer
    draws := u.draws }

theorem Held.refl (s : State) : Held s s := rfl

theorem Held.withInputs (s : State) (inputs : List Input) : Held s { s with inputs := inputs } := rfl

section
variable {s u : State} (h : Held s u)
include h

theorem Held.eq : u = { s with
    irqEn := u.irqEn, done := u.done, busyViol := u.busyViol, inputs := u.inputs, answer := u.answer
    draws := u.draws } := h

theorem Held.trans {v : State} (hv : Held u v) : Held s v := by
  have e := hv.eq
  rw [h.eq] at e
  exact e

theorem Held.seq : u.seq = s.seq := by rw [h.eq]

theorem Held.rst : u.rst = s.rst := by rw [h.eq]

theorem Held.mem : u.mem = s.mem := by rw [h.eq]

theorem Held.k : u.k = s.k := by rw [h.eq]

theorem Held.msgLen : u.msgLen = s.msgLen := by rw [h.eq]

theorem Held.labelLen : u.labelLen = s.labelLen := by rw [h.eq]

theorem Held.emLen : u.emLen = s.emLen := by rw [h.eq]

theorem Held.inLen : u.inLen = s.inLen := by rw [h.eq]

theorem Held.maskLen : u.maskLen = s.maskLen := by rw [h.eq]

theorem Held.outLen : u.outLen = s.outLen := by rw [h.eq]

theorem Held.errCode : u.errCode = s.errCode := by rw [h.eq]

theorem Held.errDetail : u.errDetail = s.errDetail := by rw [h.eq]

theorem Held.complete (o : OutPair) (f : Finish) : Held (s.complete o f) (u.complete o f) := by
  rw [h.eq]
  cases o <;> rfl

theorem Held.beforeCommit (i : Instr) : Held (beforeCommit i s) (beforeCommit i u) := by
  rw [beforeCommit_eq, beforeCommit_eq i u, h.eq]
  rfl

/-- A command that draws no seed finishes alike: it reads nothing that can have changed. -/
theorem Held.finishOf_eq {i : Instr} (hi : i ≠ .encode .fresh) : finishOf i u = finishOf i s := by
  rw [h.eq]
  cases i with
  | encode src =>
    cases src with
    | fresh => exact absurd rfl hi
    | seedBuf => rfl
  | decode | mgf1 | hash => rfl

theorem Held.after_exec {i : Instr} (hi : i ≠ .encode .fresh) {a b : State} (ha : exec i u = .next a)
    (hb : exec i s = .next b) : Held b a := by
  rw [exec_eq] at ha hb
  obtain rfl := Host.Outcome.next.inj ha
  obtain rfl := Host.Outcome.next.inj hb
  rw [h.finishOf_eq hi]
  exact (h.beforeCommit i).complete _ _

end

/-! ### Soft reset as a transaction (R241) -/

theorem isSoftReset_iff (t : Transaction) : isSoftReset t = true ↔
    t.supported = true ∧ t.kind = .write ∧ t.off.toNat = RegName.ctrl.offset ∧ t.wdata.getLsbD 1 = true := by
  simp only [isSoftReset, Bool.and_eq_true, decide_eq_true_eq, and_assoc]

theorem serve_softReset (s : State) {t : Transaction} (h : isSoftReset t = true) :
    s.serve t = { s.softReset with answer := some .written } := by
  obtain ⟨hsup, hk, hoff, hbit⟩ := (isSoftReset_iff t).1 h
  rw [serve_write s hsup hk, hoff, State.memWrite, locate_reg]
  simp only [State.writeReg, if_pos hbit]

/-- While BUSY a transaction that is no soft reset keeps the command, and takes no move of the environment (R247). -/
theorem serve_busy_held {s : State} (hs : s.seq ≠ .idle) {t : Transaction} (ht : isSoftReset t = false) :
    Held s (s.serve t) ∧ (s.serve t).inputs = s.inputs := by
  have hn : t.kind = .write → t.off.toNat = RegName.ctrl.offset → t.wdata.getLsbD 1 = true → t.supported = false :=
    fun hk hoff hbit => Bool.eq_false_iff.2 fun hsup =>
      Bool.eq_false_iff.1 ht ((isSoftReset_iff t).2 ⟨hsup, hk, hoff, hbit⟩)
  obtain ⟨e, d, f, a, n, -, hserve⟩ := serve_busy (busy_of_ne_idle hs) hn
  rw [hserve]
  exact ⟨rfl, rfl⟩

/-! ### Transactions one after another -/

theorem run_succ_of_step {s u : State} (h : step s = .next u) (n : Nat) :
    Host.Core.run Sys2Proof.core (n + 1) s = Host.Core.run Sys2Proof.core n u := by
  simp only [Host.Core.run, Sys2Proof.core, h]

/-- Transactions with no soft reset among them, served one after another, keep the command (R98). -/
theorem run_transactions_held {ts : List Transaction} {s : State} (hs : s.seq ≠ .idle) (hr : s.rst = false)
    (hts : ∀ t ∈ ts, isSoftReset t = false) (hin : s.inputs = ts.map .transact) :
    ∃ u, Host.Core.run Sys2Proof.core ts.length s = .next u ∧ Held s u ∧ u.inputs = [] := by
  induction ts generalizing s with
  | nil => exact ⟨s, rfl, Held.refl s, hin⟩
  | cons t ts ih =>
    obtain ⟨ht, hrest⟩ := List.forall_mem_cons.1 hts
    have hstep := stepServesTheNextTransaction s t (ts.map .transact) hin hr
    obtain ⟨hserved, hinputs⟩ := serve_busy_held (s := { s with inputs := ts.map .transact }) hs ht
    have hheld := (Held.withInputs s _).trans hserved
    obtain ⟨u, hrun, hu, hempty⟩ := ih (hheld.seq.trans_ne hs) (hheld.rst.trans hr) hrest hinputs
    exact ⟨u, (run_succ_of_step hstep _).trans hrun, hheld.trans hu, hempty⟩

/-- Settles O42: the transactions keep what the command reads, so its completion after them is the completion at once. -/
theorem inputsHeldWhileBusy : Obligations.InputsHeldWhileBusy := by
  intro s i ts hs hr hts hin
  obtain ⟨u, hrun, hu, hempty⟩ := run_transactions_held (by rw [hs]; nofun) hr hts hin
  have hseq : u.seq = .busy i := hu.seq.trans hs
  have hstep : step u = exec i u := by
    rw [step_core hseq (hu.rst.trans hr) (.inl hempty), hempty, List.tail_nil, ← hempty]
    rfl
  refine ⟨u, _, _, hrun, hseq, hu.mem, hu.k, hu.msgLen, hu.labelLen, hu.emLen, hu.inLen,
    hu.maskLen, hu.outLen, hstep.trans (exec_eq i u), exec_eq i s, fun hi => ?_⟩
  have hafter := hu.after_exec hi (exec_eq i u) (exec_eq i s)
  exact ⟨hafter.mem, hafter.emLen, hafter.msgLen, hafter.outLen, hafter.errCode, hafter.errDetail⟩

/-! ### One step of a BUSY block -/

theorem port_busy_cases {s : State} (hs : s.seq ≠ .idle) (t : Transaction) :
    (Held s (s.port t) ∧ (s.port t).inputs = s.inputs) ∨
    (isSoftReset t = true ∧ s.port t = { s.softReset with answer := some .written }) := by
  cases hr : s.rst with
  | true =>
    rw [State.port, if_pos hr]
    exact .inl ⟨rfl, rfl⟩
  | false =>
    rw [port_of_rst_low hr]
    cases ht : isSoftReset t with
    | false => exact .inl (serve_busy_held hs ht)
    | true => exact .inr ⟨rfl, serve_softReset s ht⟩

/-- Settles O57, by the kinds of a step: only a completion, a soft reset and a change of rst do not hold the command. -/
theorem busyEndsOnlyByCompletionOrReset : Obligations.BusyEndsOnlyByCompletionOrReset := by
  intro s t i hs hstep
  have hne : s.seq ≠ .idle := by rw [hs]; nofun
  rcases step_cases hstep with ⟨j, -, hr, hj, hexec⟩ | ⟨-, -, rfl⟩ | ⟨tr, rest, hin, rfl⟩ | ⟨l, rest, hin, rfl⟩
  · obtain rfl : i = j := Seq.busy.inj (hs.symm.trans hj)
    exact .inr (.inl ⟨hr, hexec⟩)
  · exact .inl rfl
  · rw [hin, List.tail_cons]
    rcases port_busy_cases (s := { s with inputs := rest }) hne tr with ⟨hheld, hinputs⟩ | ⟨hreset, hport⟩
    · have e := ((Held.withInputs s rest).trans hheld).eq
      rw [hinputs] at e
      exact .inl e
    · rw [hport]
      exact .inr (.inr ⟨.inl ⟨tr, rest, rfl, hreset⟩, rfl⟩)
  · rw [hin, List.tail_cons]
    by_cases hl : s.rst = l
    · rw [State.driveRst_same (s := { s with inputs := rest }) hl]
      exact .inl rfl
    · rw [State.driveRst_change (s := { s with inputs := rest }) hl]
      have hlevel : l = !s.rst := Bool.eq_not.2 (Ne.symm hl)
      exact .inr (.inr ⟨.inr ⟨rest, by rw [hlevel]⟩, rfl⟩)

end Sys2Proof.Machine
end

section
/-! The command word by its fields (R110): the decoder, the encoder and the opcode table, field by field. -/
namespace Sys2Proof

/-! ### A word is its four fields -/

theorem cmdFields_word (f : CmdFields) : cmdFields f.word = f := by
  simp (disch := decide) only [cmdFields, CmdFields.word, BitVec.extractLsb'_append_eq_of_add_le,
    BitVec.extractLsb'_append_eq_of_le, Nat.reduceSub, BitVec.extractLsb'_eq_self]

theorem word_cmdFields (v : Word) : (cmdFields v).word = v := by
  simp only [CmdFields.word, cmdFields]
  rw [BitVec.extractLsb'_append_extractLsb'_eq_extractLsb' (start₁ := 8) (len₁ := 1) rfl,
    BitVec.extractLsb'_append_extractLsb'_eq_extractLsb' (start₁ := 4) (len₁ := 4) rfl,
    BitVec.extractLsb'_append_extractLsb'_eq_extractLsb' (start₁ := 0) (len₁ := 4) rfl]
  exact BitVec.extractLsb'_eq_self

theorem cmdFields_inj {v w : Word} : cmdFields v = cmdFields w ↔ v = w :=
  ⟨fun h => by rw [← word_cmdFields v, h, word_cmdFields], congrArg cmdFields⟩

theorem cmdFields_encode (i : Instr) : cmdFields (encode i) = i.fields := cmdFields_word _

/-- A masked word is compared field by field. -/
theorem and_eq_iff_fields (v m w : Word) : v &&& m = w ↔
    (cmdFields v).op &&& (cmdFields m).op = (cmdFields w).op ∧
    (cmdFields v).rsvdLow &&& (cmdFields m).rsvdLow = (cmdFields w).rsvdLow ∧
    (cmdFields v).seedSrc &&& (cmdFields m).seedSrc = (cmdFields w).seedSrc ∧
    (cmdFields v).rsvdHigh &&& (cmdFields m).rsvdHigh = (cmdFields w).rsvdHigh := by
  rw [← cmdFields_inj]
  simp only [cmdFields, BitVec.extractLsb'_and, CmdFields.mk.injEq]

/-! ### Legal fields -/

theorem CmdFields.opcodeLegal_iff (f : CmdFields) :
    f.opcodeLegal = true ↔ f.op = 1 ∨ f.op = 2 ∨ f.op = 3 ∨ f.op = 4 := by
  simp only [CmdFields.opcodeLegal, Bool.or_eq_true, decide_eq_true_eq, or_assoc]

theorem CmdFields.reservedLegal_iff (f : CmdFields) :
    f.reservedLegal = true ↔ f.rsvdLow = 0 ∧ f.rsvdHigh = 0 ∧ (f.op = 1 ∨ f.seedSrc = 0) := by
  simp only [CmdFields.reservedLegal, Bool.and_eq_true, Bool.or_eq_true, decide_eq_true_eq, and_assoc]

/-- SEED_SRC is one bit. -/
theorem seedSrc_cases (b : BitVec 1) : b = 0 ∨ b = 1 := by
  revert b
  decide

theorem Instr.fields_wellFormed (i : Instr) : i.fields.wellFormed = true := by
  cases i with
  | encode src => exact (Laws.LegalFields.encode src).1
  | decode => exact Laws.LegalFields.decode.1
  | mgf1 => exact Laws.LegalFields.mgf1.1
  | hash => exact Laws.LegalFields.hash.1

theorem Instr.instr_fields (i : Instr) : i.fields.instr = i := by
  cases i with
  | encode src => cases src <;> rfl
  | decode | mgf1 | hash => rfl

/-- Legal fields are those of their command: no field is free (R113). -/
theorem CmdFields.fields_instr {f : CmdFields} (h : f.wellFormed = true) : f.instr.fields = f := by
  obtain ⟨hop, hreserved⟩ := Bool.and_eq_true_iff.1 h
  obtain ⟨hlow, hhigh, hseed⟩ := f.reservedLegal_iff.1 hreserved
  obtain ⟨op, low, seed, high⟩ := f
  dsimp only at hlow hhigh hseed
  subst hlow hhigh
  rcases (CmdFields.opcodeLegal_iff _).1 hop with hop | hop | hop | hop <;> dsimp only at hop <;> subst hop
  · rcases seedSrc_cases seed with rfl | rfl <;> rfl
  all_goals
    obtain rfl := hseed.resolve_left (by decide)
    rfl

/-! ### The decoder -/

theorem decodeCmd_legal_of_fields {v : Word} (h : (cmdFields v).wellFormed = true) :
    decodeCmd v = .legal (cmdFields v).instr := by
  obtain ⟨hop, hreserved⟩ := Bool.and_eq_true_iff.1 h
  simp only [decodeCmd, hop, hreserved, Bool.true_eq_false, if_false]

theorem decodeCmd_illegal_iff (v : Word) (r : IllegalReason) : decodeCmd v = .illegal r ↔
    (cmdFields v).wellFormed = false ∧
      r = if (cmdFields v).opcodeLegal then .reservedBits else .badOpcode := by
  simp only [decodeCmd, CmdFields.wellFormed]
  cases (cmdFields v).opcodeLegal <;> cases (cmdFields v).reservedLegal <;> simp [eq_comm]

/-- The decoder answers a command exactly on its encoded word. -/
theorem decodeCmd_legal_iff (v : Word) (i : Instr) : decodeCmd v = .legal i ↔ v = encode i := by
  constructor
  · intro h
    cases hw : (cmdFields v).wellFormed with
    | false => exact nomatch h.symm.trans ((decodeCmd_illegal_iff v _).2 ⟨hw, rfl⟩)
    | true =>
      obtain rfl : i = (cmdFields v).instr := Decoded.legal.inj (h.symm.trans (decodeCmd_legal_of_fields hw))
      rw [encode, CmdFields.fields_instr hw, word_cmdFields]
  · rintro rfl
    have h := decodeCmd_legal_of_fields (v := encode i)
    rw [cmdFields_encode] at h
    rw [h i.fields_wellFormed, i.instr_fields]

/-- Settles O3: a word is its fields, and legal fields are those of their command. -/
theorem decodeEncodeRoundTrip : Obligations.DecodeEncodeRoundTrip :=
  ⟨fun i => (decodeCmd_legal_iff _ i).2 rfl, fun v i => (decodeCmd_legal_iff v i).1⟩

theorem encode_eq (i : Instr) : encode i =
    match i with
    | .encode .fresh => 0x00000001
    | .encode .seedBuf => 0x00000101
    | .decode => 0x00000002
    | .mgf1 => 0x00000003
    | .hash => 0x00000004 := by
  cases i with
  | encode src => cases src <;> rfl
  | decode | mgf1 | hash => rfl

/-- Settles O1: the five words are the encoded words of the five commands. -/
theorem legalWordsAreExactlyFive : Obligations.LegalWordsAreExactlyFive := by
  intro v i
  rw [decodeCmd_legal_iff, encode_eq]
  cases i with
  | encode src => cases src <;> simp
  | decode | mgf1 | hash => simp

/-- Settles O5: the decoder evaluated on the ten words. -/
theorem writtenOutWordsDecode : Obligations.WrittenOutWordsDecode := by
  unfold Obligations.WrittenOutWordsDecode
  decide

/-! ### The decoder in the spec's own form (R114) -/

theorem opcodeLegal_cmdFields (v : Word) : (cmdFields v).opcodeLegal = false ↔
    v.extractLsb' 0 4 ≠ 0x1 ∧ v.extractLsb' 0 4 ≠ 0x2 ∧ v.extractLsb' 0 4 ≠ 0x3 ∧ v.extractLsb' 0 4 ≠ 0x4 := by
  rw [← Bool.not_eq_true, CmdFields.opcodeLegal_iff, not_or, not_or, not_or]
  rfl

/-- The bits that R114's mask leaves over are the reserved ones, and bit 8 unless OP is ENCODE's. -/
theorem reservedLegal_cmdFields (v : Word) : (cmdFields v).reservedLegal = false ↔
    v &&& ~~~(0x0000000F ||| (if v.extractLsb' 0 4 = 0x1 then 0x00000100 else 0)) ≠ 0 := by
  rw [← Bool.not_eq_true, not_iff_not, CmdFields.reservedLegal_iff, and_eq_iff_fields]
  have hencode : cmdFields (~~~(0x0000000F ||| 0x00000100)) = ⟨0, .allOnes 4, 0, .allOnes 23⟩ := by decide
  have hother : cmdFields (~~~(0x0000000F ||| 0)) = ⟨0, .allOnes 4, .allOnes 1, .allOnes 23⟩ := by decide
  have hzero : cmdFields 0 = ⟨0, 0, 0, 0⟩ := by decide
  have hfield : v.extractLsb' 0 4 = (cmdFields v).op := rfl
  rw [hfield, hzero]
  by_cases hop : (cmdFields v).op = 1
  · rw [if_pos hop, hencode]
    simp only [hop, BitVec.ofNat_eq_ofNat, BitVec.and_zero, BitVec.and_allOnes, true_and, true_or, and_true]
  · rw [if_neg hop, hother, or_iff_right hop, and_comm (a := (cmdFields v).rsvdHigh = 0)]
    simp only [BitVec.ofNat_eq_ofNat, BitVec.and_zero, BitVec.and_allOnes, true_and]

theorem getLsbD_eight_iff (v : Word) : v.getLsbD 8 = true ↔ (cmdFields v).seedSrc = 1 := by
  rw [BitVec.getLsbD_eq_extractLsb', beq_iff_eq]
  rfl

/-- Settles O2: the tests of the fields are the tests of the masks. -/
theorem decodeTestsOpcodeThenReservedBits : Obligations.DecodeTestsOpcodeThenReservedBits := by
  intro v
  unfold decodeCmd
  refine if_congr (opcodeLegal_cmdFields v) rfl (if_congr (reservedLegal_cmdFields v) rfl ?_)
  rw [CmdFields.instr, apply_ite Decoded.legal, apply_ite Decoded.legal, apply_ite Decoded.legal]
  simp only [getLsbD_eight_iff]
  rfl

theorem opcodeLegal_iff_mod (v : Word) :
    (cmdFields v).opcodeLegal = true ↔ ¬(v.toNat % 16 = 0 ∨ 5 ≤ v.toNat % 16) := by
  have hop : (cmdFields v).op.toNat = v.toNat % 16 := by
    simp [cmdFields, BitVec.extractLsb'_toNat]
  rw [CmdFields.opcodeLegal_iff]
  simp only [← BitVec.toNat_inj, hop, BitVec.ofNat_eq_ofNat, BitVec.toNat_ofNat]
  omega

/-- ERRDETAIL of an illegal word, from OP alone (R213). -/
theorem detail_of_illegal {v : Word} {r : IllegalReason} (h : decodeCmd v = .illegal r) :
    r.detail = if v.toNat % 16 = 0 ∨ 5 ≤ v.toNat % 16 then 1 else 2 := by
  obtain ⟨-, rfl⟩ := (decodeCmd_illegal_iff v r).1 h
  by_cases hop : (cmdFields v).opcodeLegal = true
  · rw [if_pos hop, if_neg ((opcodeLegal_iff_mod v).1 hop)]
    rfl
  · rw [if_neg hop, if_pos (not_not.1 (mt (opcodeLegal_iff_mod v).2 hop))]
    rfl

/-! ### The opcode table -/

theorem Instr.row_matchesWord (i : Instr) : i.row.matchesWord (Sys2Proof.encode i) = true := by
  cases i with
  | encode src => exact (Laws.LegalFields.encode src).2
  | decode => exact Laws.LegalFields.decode.2
  | mgf1 => exact Laws.LegalFields.mgf1.2
  | hash => exact Laws.LegalFields.hash.2

theorem OpcodeRow.matchesWord_iff (r : OpcodeRow) (v : Word) :
    r.matchesWord v = true ↔ v &&& r.mask = r.value := decide_eq_true_iff

/-- A row's words are the encoded words of its commands: ENCODE's row leaves bit 8 free (R112), the others no bit. -/
theorem exists_encode_of_matchesWord {v : Word} {i : Instr} (h : i.row.matchesWord v = true) :
    ∃ j, v = encode j ∧ j.row = i.row := by
  have hv := (OpcodeRow.matchesWord_iff _ v).1 h
  cases i with
  | encode src =>
    obtain ⟨hop, hlow, -, hhigh⟩ := (and_eq_iff_fields v 0xFFFFFEFF 0x00000001).1 hv
    have hmask : cmdFields 0xFFFFFEFF = ⟨.allOnes 4, .allOnes 4, 0, .allOnes 23⟩ := by decide
    have hvalue : cmdFields 0x00000001 = ⟨1, 0, 0, 0⟩ := by decide
    rw [hmask, hvalue, BitVec.and_allOnes] at hop hlow hhigh
    rw [← word_cmdFields v, CmdFields.word, hop, hlow, hhigh]
    rcases seedSrc_cases (cmdFields v).seedSrc with hseed | hseed <;> rw [hseed]
    · exact ⟨.encode .fresh, rfl, rfl⟩
    · exact ⟨.encode .seedBuf, rfl, rfl⟩
  | decode => exact ⟨.decode, BitVec.and_allOnes.symm.trans hv, rfl⟩
  | mgf1 => exact ⟨.mgf1, BitVec.and_allOnes.symm.trans hv, rfl⟩
  | hash => exact ⟨.hash, BitVec.and_allOnes.symm.trans hv, rfl⟩

/-- Settles O4: a row's words are the encoded words of its commands. -/
theorem opcodeTableRowsDecide : Obligations.OpcodeTableRowsDecide := by
  intro v i
  simp only [decodeCmd_legal_iff]
  refine ⟨exists_encode_of_matchesWord, ?_⟩
  rintro ⟨j, rfl, hrow⟩
  rw [← hrow]
  exact j.row_matchesWord

end Sys2Proof
end

section
/-! Command words at the port: what a word written to CMD of an IDLE machine does (R114, R117, R121, R215). -/
namespace Sys2Proof.Machine

/-- A legal command word is accepted: SEQ is BUSY with its command and the outcome is cleared (R215). -/
theorem serve_legal_command {s : State} {v : Word} {i : Instr} (hs : s.seq = .idle) (hd : decodeCmd v = .legal i) :
    s.serve (writeOf RegName.cmd.offset v) =
      { s with done := false, errCode := 0, errDetail := 0, seq := .busy i, answer := some .written } := by
  rw [serve_write_reg, State.writeReg, unlessBusy_idle hs, acceptCommand_legal hd]

/-- Settles O10: a word that is none of the five decodes to no command, so it is illegal. -/
theorem illegalWordEndsAtOnce : Obligations.IllegalWordEndsAtOnce := by
  intro s v hs h1 h101 h2 h3 h4
  cases hd : decodeCmd v with
  | legal i =>
    rcases (legalWordsAreExactlyFive v i).1 hd with ⟨hv, -⟩ | ⟨hv, -⟩ | ⟨hv, -⟩ | ⟨hv, -⟩ | ⟨hv, -⟩ <;> contradiction
  | illegal r =>
    rw [← detail_of_illegal hd]
    exact serve_illegal_command hs hd

/-- Settles O44: each pseudo-instruction writes its command's word to CMD. -/
theorem commandPseudosIssueTheirCommand : Obligations.CommandPseudosIssueTheirCommand := by
  intro s hs
  have hissue : ∀ i : Instr, s.serve (writeOf RegName.cmd.offset (encode i)) =
      { s with done := false, errCode := 0, errDetail := 0, seq := .busy i, answer := some .written } :=
    fun i => serve_legal_command hs ((decodeCmd_legal_iff _ i).2 rfl)
  simp only [List.forall_mem_cons, List.not_mem_nil, false_imp_iff, implies_true, and_true]
  exact ⟨hissue (.encode .fresh), hissue (.encode .seedBuf), hissue .decode, hissue .mgf1, hissue .hash⟩

theorem tableWord_toNat (v : Word) : tableWord 32 v.toNat = some v := by
  have hv : v.toNat % 2 ^ 32 = v.toNat := Nat.mod_eq_of_lt v.isLt
  rw [tableWord, hv, if_pos v.isLt, BitVec.ofNat_toNat, BitVec.setWidth_eq]

theorem withFetchWord_legal (s : State) {v : Word} {i : Instr} (hd : decodeCmd v = .legal i) :
    s.withFetchWord 32 v.toNat = { s with seq := .busy i, inputs := coreNext s.inputs, rst := false } := by
  rw [State.withFetchWord, tableWord_toNat]
  simp only [State.withCommand, hd]

theorem coreNext_cases (inputs : List Input) :
    (coreNext inputs = [] ∨ ∃ rest, coreNext inputs = .core :: rest) ∧ (coreNext inputs).tail = inputs := by
  cases inputs with
  | nil => exact ⟨.inl rfl, rfl⟩
  | cons x rest => exact ⟨.inr ⟨x :: rest, rfl⟩, rfl⟩

/-- Settles O8: the command is in SEQ and the core's turn is due. -/
theorem placedCommandRunsNext : Obligations.PlacedCommandRunsNext := by
  intro s v i hd
  obtain ⟨hdue, htail⟩ := coreNext_cases s.inputs
  constructor
  · rw [decodeTableWord, tableWord_toNat]
    simp only [hd]
  · rw [withFetchWord_legal s hd,
      step_core (s := { s with seq := .busy i, inputs := coreNext s.inputs, rst := false }) rfl rfl hdue]
    dsimp only
    rw [htail]

end Sys2Proof.Machine
end

section
/-! Completion: its frame (R116, R217), and ENCODE's independence of what it does not read (R168). -/
namespace Sys2Proof.Machine

/-- What the completion of any command leaves unchanged (R116, R216). -/
theorem exec_registers {i : Instr} {s t : State} (h : exec i s = .next t) :
    t.seq = .idle ∧ t.done = true ∧ t.cfg = s.cfg ∧ t.irqEn = s.irqEn ∧ t.busyViol = s.busyViol ∧
    t.k = s.k ∧ t.labelLen = s.labelLen ∧ t.inLen = s.inLen ∧ t.maskLen = s.maskLen ∧
    t.inputs = s.inputs ∧ t.answer = s.answer ∧ t.rst = s.rst := by
  rw [exec_eq] at h
  obtain rfl : _ = t := Host.Outcome.next.inj h
  rw [beforeCommit_eq]
  simp

theorem beforeCommit_of_no_draw {i : Instr} (hi : i ≠ .encode .fresh) (s : State) : beforeCommit i s = s := by
  cases i with
  | encode src =>
    cases src with
    | fresh => exact absurd rfl hi
    | seedBuf => rfl
  | decode | mgf1 | hash => rfl

theorem exec_draws {i : Instr} {s t : State} (hi : i ≠ .encode .fresh) (h : exec i s = .next t) :
    t.draws = s.draws := by
  rw [exec_eq, beforeCommit_of_no_draw hi] at h
  obtain rfl : _ = t := Host.Outcome.next.inj h
  exact State.complete_draws ..

theorem OutPair.len_complete_other (s : State) {o p : OutPair} (f : Finish) (hp : p ≠ o) :
    p.len (s.complete o f) = p.len s := by
  cases o with
  | em =>
    cases p with
    | em => exact absurd rfl hp
    | msg | out => rfl
  | msg =>
    cases p with
    | msg => exact absurd rfl hp
    | em | out => rfl
  | out =>
    cases p with
    | out => exact absurd rfl hp
    | em | msg => rfl

/-- The length registers of the other output pairs stand (R217). -/
theorem exec_len_other {i : Instr} {s t : State} (h : exec i s = .next t) {p : OutPair} (hp : p ≠ outPairOf i) :
    p.len t = p.len s := by
  rw [exec_eq] at h
  obtain rfl : _ = t := Host.Outcome.next.inj h
  rw [OutPair.len_complete_other _ _ hp, beforeCommit_eq]
  cases p <;> rfl

/-- Settles O13: a completion commits to its command's output pair and nothing else. -/
theorem completionTouchesOnlyItsOutputPair : Obligations.CompletionTouchesOnlyItsOutputPair := by
  intro i s t h
  obtain ⟨hseq, hdone, hcfg, hirq, hviol, hk, hlabel, hin, hmask, hinputs, hanswer, hrst⟩ := exec_registers h
  obtain ⟨-, -, houtside⟩ := exec_reads h
  have hlen := fun p hp => exec_len_other h (p := p) hp
  refine ⟨hseq, hdone, hcfg, hirq, hviol, hk, hlabel, hin, hmask, hinputs, hanswer, hrst,
    fun hi => exec_draws hi h, ?_⟩
  cases i with
  | encode src => exact ⟨hlen .msg nofun, hlen .out nofun, houtside⟩
  | decode => exact ⟨hlen .em nofun, hlen .out nofun, houtside⟩
  | mgf1 => exact ⟨hlen .em nofun, hlen .msg nofun, houtside⟩
  | hash => exact ⟨hlen .em nofun, hlen .msg nofun, houtside⟩

/-- A byte of the output buffer after a completion depends on the finish alone (R217, R218). -/
theorem read_complete_inside {s : State} {o : OutPair} {f : Finish} {j : Nat} (h : j < o.buf.cap s.cfg.params) :
    (s.complete o f).mem.read (o.buf.base + j) =
      (f.result ++ zeros (o.buf.cap s.cfg.params - f.result.length)).getD j 0 := by
  rw [State.complete_mem, Memory.read_replace_inside]
  rw [List.length_append, length_zeros]
  omega

/-- With equal parameters, completions with one finish fill the output buffer alike. -/
theorem read_complete_congr {s u : State} {o : OutPair} {f : Finish} {j : Nat} (hcfg : u.cfg = s.cfg)
    (h : j < o.buf.cap s.cfg.params) :
    (u.complete o f).mem.read (o.buf.base + j) = (s.complete o f).mem.read (o.buf.base + j) := by
  rw [read_complete_inside h, read_complete_inside (by rwa [hcfg]), hcfg]

/-- Settles O24: the two finishes are equal, and the output pair holds nothing but the finish. -/
theorem encodeReadsOnlyItsOperands : Obligations.EncodeReadsOnlyItsOperands := by
  intro s s' hcfg hk hmsgLen hlabelLen hmsg hlabel hseed
  have hchecks : s'.encodeChecks = s.encodeChecks := by
    simp only [State.encodeChecks, hcfg, hk, hmsgLen, hlabelLen]
  have hfinish : s'.encodeCmd .seedBuf = s.encodeCmd .seedBuf := by
    simp only [State.encodeCmd, hchecks, State.message, State.label, State.encodeSeed, hcfg, hk, hmsgLen, hlabelLen,
      hmsg, hlabel, hseed]
  have hexec : exec (.encode .seedBuf) s' = .next (s'.complete .em (s.encodeCmd .seedBuf)) := by
    rw [← hfinish]
    rfl
  refine ⟨s.complete .em (s.encodeCmd .seedBuf), _, rfl, hexec, rfl, rfl, rfl, fun j hj => ?_⟩
  exact read_complete_congr hcfg hj

end Sys2Proof.Machine
end

section
/-! The pseudo-instructions `load` and `dump` on an IDLE machine, byte by byte (R85, R86, R90, R121). -/
namespace Sys2Proof.Machine

/-! ### `load` -/

/-- The first word of a string that is not empty has its first four bytes, 0x00 where it has fewer (R121). -/
theorem wordsOfBytes_of_ne_nil {bytes : List Byte} (h : bytes ≠ []) : wordsOfBytes bytes =
    wordOfBytes (bytes.getD 0 0) (bytes.getD 1 0) (bytes.getD 2 0) (bytes.getD 3 0) ::
      wordsOfBytes (bytes.drop 4) := by
  match bytes, h with
  | [_], _ | [_, _], _ | [_, _, _], _ | _ :: _ :: _ :: _ :: _, _ => rfl

/-- `m'` is `m` with a string at window offset `o`, zeros in the rest of its last word, no pad byte stored (R85). -/
structure Loaded (c : Cfg) (b : Buf) (o : Nat) (bytes : List Byte) (m m' : Memory) : Prop where
  inside : ∀ j < 4 * ceilDiv bytes.length 4, o + j < b.cap c.params → m'.read (b.base + o + j) = bytes.getD j 0
  outside : ∀ a, a < b.base + o ∨ b.base + o + 4 * ceilDiv bytes.length 4 ≤ a ∨ b.base + b.cap c.params ≤ a →
    m'.read a = m.read a

theorem ceilDiv_four_of_pos {n : Nat} (h : 0 < n) : ceilDiv n 4 = ceilDiv (n - 4) 4 + 1 := by
  unfold ceilDiv
  omega

theorem Loaded.nil (c : Cfg) (b : Buf) (o : Nat) (m : Memory) : Loaded c b o [] m m :=
  ⟨fun _ hj => absurd hj (Nat.not_lt_zero _), fun _ _ => rfl⟩

/-- A string is loaded by its first word and then the rest of it. -/
theorem Loaded.cons {c : Cfg} {b : Buf} {o : Nat} {bytes : List Byte} {m m₁ m₂ : Memory} (hne : bytes ≠ [])
    (hword : ∀ n < 4, o + n < b.cap c.params → m₁.read (b.base + o + n) = bytes.getD n 0)
    (hframe : ∀ a, a < b.base + o ∨ b.base + o + 4 ≤ a ∨ b.base + b.cap c.params ≤ a → m₁.read a = m.read a)
    (hrest : Loaded c b (o + 4) (bytes.drop 4) m₁ m₂) : Loaded c b o bytes m m₂ := by
  have hceil := ceilDiv_four_of_pos (List.length_pos_iff.2 hne)
  obtain ⟨hinside, houtside⟩ := hrest
  rw [List.length_drop] at hinside houtside
  refine ⟨fun j hj hcap => ?_, fun a ha => ?_⟩
  · by_cases h4 : j < 4
    · rw [houtside _ (.inl (by omega)), hword j h4 hcap]
    · have hj' := hinside (j - 4) (by omega) (by omega)
      rwa [show b.base + (o + 4) + (j - 4) = b.base + o + j by omega, List.getD_eq_getElem?_getD, List.getElem?_drop,
        show 4 + (j - 4) = j by omega, ← List.getD_eq_getElem?_getD] at hj'
  · rw [houtside a (by omega), hframe a (by omega)]

/-- The writes of `load`, from any aligned window offset on. -/
theorem serve_storeWords {b : Buf} (hb : b ≠ .out) (bytes : List Byte) {s : State} {o : Nat} (hs : s.seq = .idle)
    (hlen : bytes.length ≤ b.cap s.cfg.params - o) (halign : o % 4 = 0) :
    ∃ m a, (storeWords (b.base + o) (wordsOfBytes bytes)).foldl State.serve s = { s with mem := m, answer := a } ∧
      Loaded s.cfg b o bytes s.mem m := by
  induction hn : bytes.length using Nat.strong_induction_on generalizing bytes s o with
  | _ n ih =>
    by_cases hne : bytes = []
    · subst hne
      exact ⟨s.mem, s.answer, rfl, Loaded.nil ..⟩
    · have hpos := List.length_pos_iff.2 hne
      obtain ⟨m₁, hserve, hword, hframe⟩ := windowWriteStoresItsBytes s b o
        (wordOfBytes (bytes.getD 0 0) (bytes.getD 1 0) (bytes.getD 2 0) (bytes.getD 3 0)) hs hb (by omega) halign
      obtain ⟨m₂, a, hrest, hloaded⟩ := ih (bytes.length - 4) (by omega) (bytes.drop 4)
        (s := { s with mem := m₁, answer := some .written }) (o := o + 4) hs
        (by rw [List.length_drop]; dsimp only; omega) (by omega) List.length_drop
      refine ⟨m₂, a, ?_, hloaded.cons hne (fun n hn hcap => ?_) hframe⟩
      · rw [wordsOfBytes_of_ne_nil hne, storeWords, List.foldl_cons, hserve]
        exact hrest
      · rw [hword n hn hcap, lane_wordOfBytes _ _ _ _ hn]
        match n, hn with
        | 0, _ | 1, _ | 2, _ | 3, _ => rfl

/-- Settles O45: `load` is its writes from window offset 0 on. -/
theorem loadPutsTheBytesInTheBuffer : Obligations.LoadPutsTheBytesInTheBuffer := by
  intro s b bytes hs hb hlen
  obtain ⟨m, a, hserve, hinside, houtside⟩ := serve_storeWords hb bytes (s := s) (o := 0) hs hlen rfl
  have hexpand : (HostOp.load b bytes).expand.foldl State.serve s = { s with mem := m, answer := a } := hserve
  rw [hexpand]
  have hcover := le_ceilDiv_mul bytes.length (b := 4) (by decide)
  simp only [Nat.zero_add, Nat.add_zero] at hinside houtside
  refine ⟨?_, fun j hj hwords hcap => ?_, houtside, rfl⟩
  · refine List.ext_getElem (Memory.length_readBytes ..) fun j hj hj' => ?_
    rw [← List.getD_eq_getElem _ 0 hj, ← List.getD_eq_getElem _ 0 hj', State.slice,
      Memory.getD_readBytes _ _ _ _ hj', hinside j (by omega) (by omega)]
  · rw [hinside j hwords hcap, List.getD_eq_default _ _ hj]

/-! ### `dump` -/

theorem HostState.issueAll_singleton (t : Transaction) (h : HostState) : HostState.issueAll [t] h = h.issue t := by
  simp only [HostState.issueAll]
  cases h.issue t <;> rfl

/-- A window read of an IDLE machine, as the host sees it: the word is kept, and nothing else changes (R89). -/
theorem HostState.served_window_idle {h : HostState} {b : Buf} {o : Nat} (hs : h.machine.seq = .idle)
    (ho : o < b.cap h.machine.cfg.params) (halign : o % 4 = 0) :
    h.served h.machine (readOf (b.base + o)) =
      { h with
        machine := { h.machine with answer := some (.read (h.machine.windowWord b o)) }
        turns := h.turns.tail
        reads := h.reads ++ [h.machine.windowWord b o] } := by
  simp only [HostState.served, serve_read_window_idle hs ho halign]
  rfl

/-- Window reads of an IDLE machine return the window words, in order. -/
theorem HostState.issueAll_window_reads {b : Buf} (os : List Nat) {h : HostState} (hr : h.machine.rst = false)
    (hs : h.machine.seq = .idle) (hos : ∀ o ∈ os, o < b.cap h.machine.cfg.params ∧ o % 4 = 0) :
    ∃ h', HostState.issueAll (os.map fun o => readOf (b.base + o)) h = .next h' ∧
      h'.reads = h.reads ++ os.map (h.machine.windowWord b) ∧
      h'.machine = { h.machine with answer := h'.machine.answer } ∧ h'.waiting = h.waiting := by
  induction os generalizing h with
  | nil => exact ⟨h, rfl, (List.append_nil _).symm, rfl, rfl⟩
  | cons o os ih =>
    obtain ⟨⟨ho, halign⟩, hrest⟩ := List.forall_mem_cons.1 hos
    have hissue := HostState.issue_served hr (.inr hs) (readOf (b.base + o))
    rw [HostState.served_window_idle hs ho halign] at hissue
    obtain ⟨h', hrun, hreads, hmachine, hwaiting⟩ := ih (h := { h with
      machine := { h.machine with answer := some (.read (h.machine.windowWord b o)) }
      turns := h.turns.tail
      reads := h.reads ++ [h.machine.windowWord b o] }) hr hs hrest
    refine ⟨h', ?_, ?_, hmachine, hwaiting⟩
    · rw [List.map_cons, HostState.issueAll, hissue]
      exact hrun
    · rw [hreads, List.append_assoc]
      rfl

/-- The bytes of the first `q` window words are the first 4q window bytes (R86). -/
theorem bytes_of_window_words (s : State) (b : Buf) (q : Nat) :
    (((List.range q).map (4 * ·)).map (s.windowWord b)).flatMap bytesOfWord =
      (List.range (4 * q)).map (s.windowByte b) := by
  induction q with
  | zero => rfl
  | succ q ih =>
    rw [List.range_succ, List.map_append, List.map_append, List.flatMap_append, ih, Nat.mul_succ, List.range_add,
      List.map_append]
    simp only [State.windowWord, List.map_cons, List.map_nil, List.flatMap_cons, List.flatMap_nil,
      bytesOfWord_wordOfBytes]
    rfl

theorem unpack_window_words (s : State) (b : Buf) {n : Nat} (h : n ≤ b.cap s.cfg.params) :
    unpackWords n (((List.range (ceilDiv n 4)).map (4 * ·)).map (s.windowWord b)) = s.slice b n := by
  have hcover := le_ceilDiv_mul n (b := 4) (by decide)
  rw [unpackWords, bytes_of_window_words, ← List.map_take, List.take_range, Nat.min_eq_left (by omega)]
  refine List.map_congr_left fun i hi => if_pos ?_
  have := List.mem_range.1 hi
  omega

/-- Settles O47: the words read are the window words, and their bytes are the window's. -/
theorem dumpReadsTheBufferBytes : Obligations.DumpReadsTheBufferBytes := by
  intro h b n hr hw hs hn
  have hoffsets : ∀ o ∈ (List.range (ceilDiv n 4)).map (4 * ·), o < b.cap h.machine.cfg.params ∧ o % 4 = 0 := by
    refine List.forall_mem_map.2 fun j hj => ?_
    have hj' := List.mem_range.1 hj
    unfold ceilDiv at hj'
    omega
  obtain ⟨h', hrun, hreads, hmachine, hwaiting⟩ := HostState.issueAll_window_reads _ hr hs hoffsets
  refine ⟨h', _, ?_, hreads, ?_, unpack_window_words h.machine b hn, hmachine, hwaiting.trans hw⟩
  · rw [HostOp.run, hw, if_neg Bool.false_ne_true, if_neg (by simp), HostOp.expand, ← hrun, List.map_map]
    rfl
  · rw [List.length_map, List.length_map, List.length_range]

end Sys2Proof.Machine
end

section
/-! The pseudo-instruction `wait`, along every list of turns of the core (R51, R121, R216, R233, R253). -/
namespace Sys2Proof.Machine

/-! ### One poll -/

/-- The state in which the command's completion leaves the machine (R216). -/
def completion (i : Instr) (m : State) : State := (beforeCommit i m).complete (outPairOf i) (finishOf i m)

theorem exec_completion (i : Instr) (m : State) : exec i m = .next (completion i m) := exec_eq i m

theorem completion_done (i : Instr) (m : State) : (completion i m).done = true := State.complete_done ..

/-- A completion neither reads nor changes the port's last answer. -/
theorem completion_answer (i : Instr) (m : State) (a : Option Answer) :
    completion i { m with answer := a } = { completion i m with answer := a } := by
  cases i with
  | encode src => cases src <;> rfl
  | decode | mgf1 | hash => rfl

/-- The host after a poll of `wait` that found the machine `m`. -/
def HostState.polled (h : HostState) (m : State) : HostState :=
  { h with
    machine := { m with answer := some (.read m.statusWord) }
    turns := h.turns.tail
    reads := h.reads ++ [m.statusWord] }

theorem HostState.issue_poll {h : HostState} (hr : h.machine.rst = false)
    (hq : h.turns.headD true = false ∨ h.machine.seq = .idle) :
    h.issue (readOf RegName.status.offset) = .next (h.polled h.machine) := by
  rw [HostState.issue_served hr hq, HostState.served_poll, HostState.polled]

theorem HostState.issue_poll_completed {h : HostState} {i : Instr} (hr : h.machine.rst = false)
    (hd : h.turns.headD true = true) (hs : h.machine.seq = .busy i) :
    h.issue (readOf RegName.status.offset) = .next (h.polled (completion i h.machine)) := by
  rw [HostState.issue_completed hr hd hs, HostState.served_poll, HostState.polled, completion]

theorem HostState.sawDone_polled (h : HostState) (m : State) : (h.polled m).sawDone = m.done :=
  statusWord_done m

section
variable {h : HostState} {m : State} (hpoll : h.issue (readOf RegName.status.offset) = .next (h.polled m))
include hpoll

/-- A poll that finds DONE = 1 ends the loop, whatever turns are left. -/
theorem waitLoop_of_done (hdone : m.done = true) (turns : List Bool) : waitLoop turns h = .next (h.polled m) := by
  have hsaw : (h.polled m).sawDone = true := (h.sawDone_polled m).trans hdone
  cases turns <;> simp only [waitLoop, HostOp.expand, HostState.issueAll_singleton, hpoll, onNext, hsaw, if_true]

/-- A poll that finds DONE = 0 goes on while turns are left. -/
theorem waitLoop_cons_of_not_done (hdone : m.done = false) (turn : Bool) (turns : List Bool) :
    waitLoop (turn :: turns) h = waitLoop turns (h.polled m) := by
  have hsaw : (h.polled m).sawDone = false := (h.sawDone_polled m).trans hdone
  simp only [waitLoop, HostOp.expand, HostState.issueAll_singleton, hpoll, onNext, hsaw, Bool.false_eq_true, if_false]

/-- A poll that finds DONE = 0 with no turn left is one of a loop that does not end (R253). -/
theorem waitLoop_nil_of_not_done (hdone : m.done = false) :
    waitLoop [] h = .next { h.polled m with waiting := true } := by
  have hsaw : (h.polled m).sawDone = false := (h.sawDone_polled m).trans hdone
  simp only [waitLoop, HostOp.expand, HostState.issueAll_singleton, hpoll, onNext, hsaw, Bool.false_eq_true, if_false]

end

/-! ### The loop -/

theorem run_wait {h : HostState} (hw : h.waiting = false) : HostOp.wait.run h = waitLoop h.turns h := by
  rw [HostOp.run, hw, if_neg Bool.false_ne_true, if_pos rfl]

theorem run_of_waiting {h : HostState} (hw : h.waiting = true) (op : HostOp) : op.run h = .next h := by
  rw [HostOp.run, if_pos hw]

/-- IDLE with DONE = 0 no turn of the core changes anything, and the loop does not end (R253). -/
theorem waitLoop_idle_not_done (turns : List Bool) {h : HostState} (hr : h.machine.rst = false)
    (hs : h.machine.seq = .idle) (hdone : h.machine.done = false) :
    ∃ h', waitLoop turns h = .next h' ∧ h'.waiting = true ∧
      h'.machine = { h.machine with answer := h'.machine.answer } := by
  have hpoll := HostState.issue_poll hr (.inr hs)
  induction turns generalizing h with
  | nil => exact ⟨_, waitLoop_nil_of_not_done hpoll hdone, rfl, rfl⟩
  | cons turn turns ih =>
    obtain ⟨h', hrun, hw, hmachine⟩ :=
      ih (h := h.polled h.machine) hr hs hdone (HostState.issue_poll (h := h.polled h.machine) hr (.inr hs))
    exact ⟨h', (waitLoop_cons_of_not_done hpoll hdone turn turns).trans hrun, hw, hmachine⟩

/-- `h'` is the host `h` after a `wait` for the BUSY command `i`: the machine has completed it, and the words read before
the last one are the STATUS of the BUSY machine (R121, R216). -/
structure WaitedFor (i : Instr) (h h' : HostState) : Prop where
  waiting : h'.waiting = h.waiting
  machine : h'.machine =
    { completion i h.machine with answer := some (.read (completion i h.machine).statusWord) }
  reads : ∃ ws, h'.reads = h.reads ++ ws ++ [(completion i h.machine).statusWord] ∧
    ∀ w ∈ ws, w = h.machine.statusWord

theorem WaitedFor.of_completion (i : Instr) (h : HostState) : WaitedFor i h (h.polled (completion i h.machine)) where
  waiting := rfl
  machine := rfl
  reads := ⟨[], by rw [List.append_nil, HostState.polled], nofun⟩

/-- A poll that finds the command BUSY is one of its words. -/
theorem WaitedFor.of_poll {i : Instr} {h h' : HostState} (hwaited : WaitedFor i (h.polled h.machine) h') :
    WaitedFor i h h' := by
  have hcompletion : completion i (h.polled h.machine).machine =
      { completion i h.machine with answer := some (.read h.machine.statusWord) } := completion_answer ..
  obtain ⟨hwaiting, hmachine, ws, hreads, hws⟩ := hwaited
  rw [hcompletion] at hmachine hreads
  refine ⟨hwaiting, hmachine, h.machine.statusWord :: ws, ?_, List.forall_mem_cons.2 ⟨rfl, hws⟩⟩
  rw [hreads, HostState.polled, List.append_assoc h.reads]
  rfl

/-- While a command is BUSY with DONE = 0 the loop ends with its completion: at the first turn of the core, which comes
at the latest when the list of turns is used up (R216, R233). -/
theorem waitLoop_busy {i : Instr} {h : HostState} (hr : h.machine.rst = false) (hs : h.machine.seq = .busy i)
    (hdone : h.machine.done = false) : ∃ h', waitLoop h.turns h = .next h' ∧ WaitedFor i h h' := by
  induction hturns : h.turns generalizing h with
  | nil =>
    have hpoll := HostState.issue_poll_completed hr (by rw [hturns]; rfl) hs
    exact ⟨_, waitLoop_of_done hpoll (completion_done i _) [], .of_completion i h⟩
  | cons turn turns ih =>
    cases turn with
    | true =>
      have hpoll := HostState.issue_poll_completed hr (by rw [hturns]; rfl) hs
      exact ⟨_, waitLoop_of_done hpoll (completion_done i _) _, .of_completion i h⟩
    | false =>
      have hpoll := HostState.issue_poll hr (.inl (by rw [hturns]; rfl))
      obtain ⟨h', hrun, hwaited⟩ := ih (h := h.polled h.machine) hr hs hdone (congrArg List.tail hturns)
      exact ⟨h', (waitLoop_cons_of_not_done hpoll hdone false turns).trans hrun, hwaited.of_poll⟩

/-- IDLE with DONE = 1 the loop ends at its first read. -/
theorem run_wait_done {h : HostState} (hw : h.waiting = false) (hr : h.machine.rst = false)
    (hs : h.machine.seq = .idle) (hdone : h.machine.done = true) :
    HostOp.wait.run h = .next (h.polled h.machine) := by
  rw [run_wait hw]
  exact waitLoop_of_done (HostState.issue_poll hr (.inr hs)) hdone _

theorem run_wait_busy {i : Instr} {h : HostState} (hw : h.waiting = false) (hr : h.machine.rst = false)
    (hs : h.machine.seq = .busy i) (hdone : h.machine.done = false) :
    ∃ h', HostOp.wait.run h = .next h' ∧ WaitedFor i h h' := by
  rw [run_wait hw]
  exact waitLoop_busy hr hs hdone

theorem WaitedFor.done {i : Instr} {h h' : HostState} (hwaited : WaitedFor i h h') : h'.machine.done = true := by
  rw [hwaited.machine]
  exact completion_done i h.machine

/-- With DONE = 1 or a command BUSY, `wait` ends with DONE = 1 (R233). -/
theorem run_wait_ends {h : HostState} (hw : h.waiting = false) (hr : h.machine.rst = false)
    (hcases : h.machine.seq = .idle ∧ h.machine.done = true ∨ ∃ i, h.machine.seq = .busy i ∧ h.machine.done = false) :
    ∃ h', HostOp.wait.run h = .next h' ∧ h'.waiting = false ∧ h'.machine.done = true := by
  rcases hcases with ⟨hs, hdone⟩ | ⟨i, hs, hdone⟩
  · exact ⟨_, run_wait_done hw hr hs hdone, hw, hdone⟩
  · obtain ⟨h', hrun, hwaited⟩ := run_wait_busy hw hr hs hdone
    exact ⟨h', hrun, hwaited.waiting.trans hw, hwaited.done⟩

/-- Any word written to CMD of an IDLE machine ends at once or is BUSY with DONE = 0 (R215). -/
theorem serve_command_cases {s : State} (hs : s.seq = .idle) (v : Word) :
    (s.serve (writeOf RegName.cmd.offset v)).rst = s.rst ∧
    ((s.serve (writeOf RegName.cmd.offset v)).seq = .idle ∧ (s.serve (writeOf RegName.cmd.offset v)).done = true ∨
      ∃ i, (s.serve (writeOf RegName.cmd.offset v)).seq = .busy i ∧
        (s.serve (writeOf RegName.cmd.offset v)).done = false) := by
  cases hd : decodeCmd v with
  | legal i =>
    rw [serve_legal_command hs hd]
    exact ⟨rfl, .inr ⟨i, rfl, rfl⟩⟩
  | illegal r =>
    have hserve : s.serve (writeOf RegName.cmd.offset v) = _ := serve_illegal_command hs hd
    rw [hserve]
    exact ⟨rfl, .inl ⟨hs, rfl⟩⟩

theorem run_swReg_idle {h : HostState} (hw : h.waiting = false) (hr : h.machine.rst = false)
    (hs : h.machine.seq = .idle) (r : RegName) (v : Word) :
    (HostOp.swReg r v).run h = .next (h.served h.machine (writeOf r.offset v)) := by
  rw [HostOp.run, hw, if_neg Bool.false_ne_true, if_neg nofun, HostOp.expand, HostState.issueAll_singleton,
    HostState.issue_served hr (.inr hs)]

theorem runProgram_pair {first second : HostOp} {h h₁ h₂ : HostState} (h1 : first.run h = .next h₁)
    (h2 : second.run h₁ = .next h₂) : runProgram [first, second] h = .next h₂ := by
  simp only [runProgram, h1, h2, onNext]

/-- Settles O46: by SEQ and DONE, what the loop of polls comes to. -/
theorem waitEndsWhenDoneIsRead : Obligations.WaitEndsWhenDoneIsRead := by
  intro h hr hw
  refine ⟨fun hs v => ?_, fun i hs hdone => ?_, run_wait_done hw hr, fun hs hdone => ?_⟩
  · obtain ⟨hrst, hcases⟩ := serve_command_cases hs v
    obtain ⟨h', hrun, hend⟩ :=
      run_wait_ends (h := h.served h.machine (writeOf RegName.cmd.offset v)) hw (hrst.trans hr) hcases
    exact ⟨h', runProgram_pair (run_swReg_idle hw hr hs .cmd v) hrun, hend⟩
  · obtain ⟨h', hrun, hwaiting, hmachine, ws, hreads, hws⟩ := run_wait_busy hw hr hs hdone
    refine ⟨h', completion i h.machine, ws, hrun, exec_completion i _, hwaiting.trans hw, hmachine, hreads,
      (statusWord_done _).trans (completion_done i _), fun w hmem => ⟨hws w hmem, ?_⟩⟩
    rw [hws w hmem, statusWord_done, hdone]
  · obtain ⟨h', hrun, hwaiting, hmachine⟩ := waitLoop_idle_not_done h.turns hr hs hdone
    exact ⟨h', (run_wait hw).trans hrun, hwaiting, hmachine, run_of_waiting hwaiting⟩

end Sys2Proof.Machine
end

section
/-! MGF1 as a function of its seed and length: the counter blocks, and the laws of the mask (R17, R19, R135, R136). -/
namespace Sys2Proof.Machine

theorem extractLsb'_ofNat_byte (i : Nat) {a : Nat} (ha : a + 8 ≤ 32) :
    (BitVec.ofNat 32 i).extractLsb' a 8 = BitVec.ofNat 8 (i / 2 ^ a) := by
  apply BitVec.eq_of_getLsbD_eq
  intro j hj
  have hbit : a + j < 32 := by omega
  simp only [BitVec.getLsbD_extractLsb', BitVec.getLsbD_ofNat, hj, hbit, decide_true, Bool.true_and,
    Nat.testBit_div_two_pow, Nat.add_comm]

/-- The counter string of R17, each byte a quotient of the counter. -/
theorem be32_eq (i : Nat) :
    be32 i = [BitVec.ofNat 8 (i / 2 ^ 24), BitVec.ofNat 8 (i / 2 ^ 16), BitVec.ofNat 8 (i / 2 ^ 8), BitVec.ofNat 8 i] := by
  simp [be32, extractLsb'_ofNat_byte]

/-- `ceilDiv` is the one least number of blocks that cover `a` (R19). -/
theorem ceilDiv_eq_of_least {a b n : Nat} (hb : 0 < b) (hcover : a ≤ n * b) (hleast : ∀ m, a ≤ m * b → n ≤ m) :
    ceilDiv a b = n :=
  le_antisymm (ceilDiv_le hb hcover) (hleast _ (le_ceilDiv_mul a hb))

theorem mgf1_of_too_long {p : Params} {z : List Byte} {l : Nat} (h : 2 ^ 32 * p.hLen < l) :
    mgf1 p z l = .error .maskTooLong := if_pos h

/-- Settles O16: the least number of covering blocks is `ceilDiv`, and the counter string is big-endian. -/
theorem maskIsTruncatedHashBlocks : Obligations.MaskIsTruncatedHashBlocks := by
  intro c z l n hcover hleast
  by_cases hlong : 2 ^ 32 * c.params.hLen < l
  · rw [if_pos hlong, mgf1_of_too_long hlong]
  · rw [if_neg hlong, mgf1_of_le (Nat.le_of_not_lt hlong), mgfMask, ceilDiv_eq_of_least (hLen_pos c) hcover hleast]
    simp only [← be32_eq]
    rfl

/-- A mask of whole blocks is not truncated (R136). -/
theorem mgfMask_whole_blocks (c : Cfg) (z : List Byte) (q : Nat) :
    mgfMask c.params z (q * c.params.hLen) = (List.range q).flatMap (mgfBlock c.params z) := by
  rw [mgfMask, ceilDiv_mul q (hLen_pos c), List.take_of_length_le (length_mgfBlocks c z q).le]

/-- The mask of a shorter length is the start of a longer one (R136). -/
theorem take_mgfMask (c : Cfg) (z : List Byte) {l l' : Nat} (h : l' ≤ l) :
    (mgfMask c.params z l).take l' = mgfMask c.params z l' := by
  rw [mgfMask_of_blocks c z (ceilDiv_mono c.params.hLen h), mgfMask, List.take_take, Nat.min_eq_left h]

/-- Settles O17: the four laws, each a lemma on `mgfMask`. -/
theorem maskLengthBlocksPrefix : Obligations.MaskLengthBlocksPrefix := by
  intro c z l hl
  refine ⟨mgfMask c.params z l, mgf1_of_le hl, length_mgfMask c z l, fun q hq => ?_, fun l' hl' => ?_, fun hzero => ?_⟩
  · rw [hq]
    exact mgfMask_whole_blocks c z q
  · rw [mgf1_of_le (hl'.trans hl), take_mgfMask c z hl']
  · exact List.eq_nil_of_length_eq_zero ((length_mgfMask c z l).trans hzero)

end Sys2Proof.Machine
end

section
/-! The MGF1 and HASH commands (R140, R145): how they finish, and what the completion then shows (R217, R218). -/
namespace Sys2Proof.Machine

/-! ### A completion by its finish -/

/-- The outcome and the length register that a completion records (R217, R218). -/
theorem exec_outcome {i : Instr} {s t : State} (h : exec i s = .next t) :
    t.errCode = (finishOf i s).errCode ∧ t.errDetail = (finishOf i s).errDetail ∧
    (outPairOf i).len t = BitVec.ofNat 32 (finishOf i s).result.length := by
  rw [exec_eq] at h
  obtain rfl : _ = t := Host.Outcome.next.inj h
  exact ⟨State.complete_errCode .., State.complete_errDetail .., OutPair.len_complete ..⟩

/-- A command that finishes with a result shows it, zeros after it, and its length (R217). -/
theorem exec_of_ok {i : Instr} {s t : State} {r : List Byte} (h : exec i s = .next t) (hf : finishOf i s = .ok r) :
    t.errCode = 0 ∧ t.errDetail = 0 ∧ ((outPairOf i).len t).toNat = r.length ∧
    t.slice (outPairOf i).buf r.length = r ∧
    ∀ j, r.length ≤ j → j < (outPairOf i).buf.cap s.cfg.params → t.mem.read ((outPairOf i).buf.base + j) = 0 := by
  obtain ⟨hcode, hdetail, hlen⟩ := exec_outcome h
  obtain ⟨hresult, htail, -⟩ := exec_reads h
  have hfits := (finishOf_fits i s).trans (cap_le s.cfg _)
  rw [hf] at hcode hdetail hlen hresult htail hfits
  refine ⟨hcode, hdetail, ?_, hresult, htail⟩
  rw [hlen, BitVec.toNat_ofNat, Nat.mod_eq_of_lt (hfits.trans_lt (by decide))]
  rfl

/-- A command that finishes with an error records it and erases its output pair (R218). -/
theorem exec_of_err {i : Instr} {s t : State} {e : CmdError} (h : exec i s = .next t) (hf : finishOf i s = .err e) :
    t.errCode = e.errCode ∧ t.errDetail = e.errDetail ∧ (outPairOf i).len t = 0 ∧
    ∀ j, j < (outPairOf i).buf.cap s.cfg.params → t.mem.read ((outPairOf i).buf.base + j) = 0 := by
  obtain ⟨hcode, hdetail, hlen⟩ := exec_outcome h
  obtain ⟨-, htail, -⟩ := exec_reads h
  rw [hf] at hcode hdetail hlen htail
  exact ⟨hcode, hdetail, hlen, fun j hj => htail j (Nat.zero_le j) hj⟩

/-! ### HASH (R145) -/

theorem finishOf_hash_of_le {s : State} (h : s.inLen.toNat ≤ s.cfg.params.inMax) :
    finishOf .hash s = .ok (hash s.cfg.params s.inputString) := by
  have hp := (Params.wellFormed_iff _).1 s.cfg.ok
  rw [finishOf, State.hashCmd, (hashChecks_eq_none s).2 h]
  simp only [hashChecked, length_inputString]
  rw [if_neg (by omega)]
  rfl

theorem finishOf_hash_of_gt {s : State} (h : s.cfg.params.inMax < s.inLen.toNat) :
    finishOf .hash s = .err (.length .inRange) := by
  simp [finishOf, State.hashCmd, State.hashChecks, firstFailing, h]

/-- Settles O14: HASH finishes with the digest, which has H_LEN bytes. -/
theorem hashWritesTheDigest : Obligations.HashWritesTheDigest := by
  intro s hin
  have hexec := exec_eq .hash s
  obtain ⟨hseq, hdone, -⟩ := exec_registers hexec
  have hok := exec_of_ok hexec (finishOf_hash_of_le hin)
  rw [length_hash] at hok
  exact ⟨_, hexec, hseq, hdone, hok⟩

/-- Settles O15, by the one check of HASH that can fail. -/
theorem hashFailsOnlyInRange : Obligations.HashFailsOnlyInRange := by
  intro s
  have hexec := exec_eq .hash s
  refine ⟨_, hexec, ?_⟩
  by_cases hin : s.cfg.params.inMax < s.inLen.toNat
  · obtain ⟨hcode, hdetail, herased⟩ := exec_of_err hexec (finishOf_hash_of_gt hin)
    rw [if_pos hin, if_pos hin]
    exact ⟨hcode, hdetail, fun _ => herased⟩
  · obtain ⟨hcode, hdetail, -⟩ := exec_of_ok hexec (finishOf_hash_of_le (Nat.le_of_not_lt hin))
    rw [if_neg hin, if_neg hin]
    exact ⟨hcode, hdetail, fun h => absurd h hin⟩

/-! ### MGF1 (R140) -/

/-- A mask that fits OUT_BUF is far below MGF1's own bound. -/
theorem le_mgf1_bound (c : Cfg) {l : Nat} (h : l ≤ c.params.outMax) : l ≤ 2 ^ 32 * c.params.hLen := by
  have hcap : c.params.outMax ≤ 4096 := cap_le c .out
  have hpos := hLen_pos c
  omega

theorem finishOf_mgf1_of_le {s : State} (hin : s.inLen.toNat ≤ s.cfg.params.inMax)
    (hmask : s.maskLen.toNat ≤ s.cfg.params.outMax) :
    finishOf .mgf1 s = .ok (mgfMask s.cfg.params s.inputString s.maskLen.toNat) := by
  rw [finishOf, State.mgf1Cmd, (mgf1Checks_eq_none s).2 ⟨hin, hmask⟩]
  simp only [mgf1_of_le (le_mgf1_bound s.cfg hmask)]
  rfl

theorem finishOf_mgf1_of_inLen_gt {s : State} (h : s.cfg.params.inMax < s.inLen.toNat) :
    finishOf .mgf1 s = .err (.length .inRange) := by
  simp [finishOf, State.mgf1Cmd, State.mgf1Checks, firstFailing, h]

/-- MASK_TOO_LONG, which stands before OUT_RANGE, cannot fail: MASK_LEN has 32 bits and H_LEN is at least 1. -/
theorem finishOf_mgf1_of_maskLen_gt {s : State} (hin : ¬ s.cfg.params.inMax < s.inLen.toNat)
    (hmask : s.cfg.params.outMax < s.maskLen.toNat) : finishOf .mgf1 s = .err (.length .outRange) := by
  have hpos := hLen_pos s.cfg
  have hword := s.maskLen.isLt
  have hbound : ¬ 2 ^ 32 * s.cfg.params.hLen < s.maskLen.toNat := by omega
  simp only [finishOf, State.mgf1Cmd, State.mgf1Checks, firstFailing, hin, hbound, hmask, decide_true, decide_false,
    if_true, Bool.false_eq_true, if_false]

/-- Settles O18: MGF1 finishes with the mask, which has MASK_LEN bytes. -/
theorem mgf1WritesTheMask : Obligations.Mgf1WritesTheMask := by
  intro s hin hmask
  have hexec := exec_eq .mgf1 s
  obtain ⟨hseq, hdone, -⟩ := exec_registers hexec
  have hok := exec_of_ok hexec (finishOf_mgf1_of_le hin hmask)
  rw [length_mgfMask] at hok
  obtain ⟨hcode, hdetail, hlen, hresult, htail⟩ := hok
  exact ⟨_, _, hexec, hseq, hdone, hcode, hdetail, mgf1_of_le (le_mgf1_bound s.cfg hmask), BitVec.eq_of_toNat_eq hlen,
    hresult, htail⟩

/-- Settles O19, by the first of the two checks of MGF1 that can fail. -/
theorem mgf1FailsInOrder : Obligations.Mgf1FailsInOrder := by
  intro s
  have hexec := exec_eq .mgf1 s
  refine ⟨_, hexec, ?_⟩
  by_cases hin : s.cfg.params.inMax < s.inLen.toNat
  · obtain ⟨hcode, hdetail, herased⟩ := exec_of_err hexec (finishOf_mgf1_of_inLen_gt hin)
    rw [if_pos hin]
    exact ⟨Prod.ext hcode hdetail, fun _ => herased⟩
  · rw [if_neg hin]
    by_cases hmask : s.cfg.params.outMax < s.maskLen.toNat
    · obtain ⟨hcode, hdetail, herased⟩ := exec_of_err hexec (finishOf_mgf1_of_maskLen_gt hin hmask)
      rw [if_pos hmask]
      exact ⟨Prod.ext hcode hdetail, fun _ => herased⟩
    · obtain ⟨hcode, hdetail, -⟩ :=
        exec_of_ok hexec (finishOf_mgf1_of_le (Nat.le_of_not_lt hin) (Nat.le_of_not_lt hmask))
      rw [if_neg hmask]
      exact ⟨Prod.ext hcode hdetail, fun h => absurd h (not_or.2 ⟨hin, hmask⟩)⟩

end Sys2Proof.Machine
end

section
/-! The count of draws, which no step takes back (R99, R133). -/
namespace Sys2Proof.Machine

theorem exec_fresh_draws {s t : State} (h : exec (.encode .fresh) s = .next t) : t.draws = s.draws + 1 := by
  rw [exec_eq] at h
  obtain rfl : _ = t := Host.Outcome.next.inj h
  exact State.complete_draws ..

theorem exec_draws_le {i : Instr} {s t : State} (h : exec i s = .next t) : s.draws ≤ t.draws := by
  by_cases hi : i = .encode .fresh
  · subst hi
    rw [exec_fresh_draws h]
    exact Nat.le_succ _
  · exact (exec_draws hi h).ge

theorem memWrite_draws (s : State) (off : Nat) (v : Word) : (s.memWrite off v).draws = s.draws := by
  rcases memWrite_cases s off v with he | ⟨r, -, he⟩ | ⟨b, o, -, -, he⟩
  · rw [he]
  · obtain ⟨-, -, -, -, hdraws⟩ := writeReg_kept s r v
    rw [he]
    exact hdraws
  · obtain ⟨m, f, hw⟩ := writeWindow_kept s b o v
    rw [he, hw]

theorem serve_draws_le (s : State) (t : Transaction) : s.draws ≤ (s.serve t).draws := by
  cases hsup : t.supported with
  | false => rw [serve_unsupported s hsup]
  | true =>
    cases hk : t.kind with
    | read =>
      obtain ⟨a, n, he, hn⟩ := memRead_eq s t.off.toNat
      rw [serve_read s hsup hk, he]
      exact hn
    | write => rw [serve_write s hsup hk, memWrite_draws]

theorem port_draws_le (s : State) (t : Transaction) : s.draws ≤ (s.port t).draws := by
  unfold State.port
  split
  · exact le_rfl
  · exact serve_draws_le s t

theorem step_draws_le {s t : State} (h : step s = .next t) : s.draws ≤ t.draws := by
  rcases step_cases h with ⟨i, -, -, -, hexec⟩ | ⟨-, -, rfl⟩ | ⟨tr, rest, -, rfl⟩ | ⟨l, rest, -, rfl⟩
  · exact exec_draws_le (s := { s with inputs := s.inputs.tail }) hexec
  · exact le_rfl
  · exact port_draws_le { s with inputs := rest } tr
  · exact (State.driveRst_draws { s with inputs := rest } l).ge

/-- Settles O25: by the kinds of a step, and the two operations that draw. -/
theorem drawsAreNeverReused : Obligations.DrawsAreNeverReused := by
  refine ⟨fun _ _ => step_draws_le, fun _ _ => exec_fresh_draws, fun s b o hs ho halign => ?_⟩
  rw [serve_read_window ho halign, if_pos (busy_of_ne_idle hs)]
  rfl

end Sys2Proof.Machine
end

section
/-! ENCODE (R160 to R167): the encoded message by its parts, how the command finishes, and its first failing check. -/
namespace Sys2Proof.Machine

/-! ### The parts of an encoded message (R164, R167) -/

/-- maskedDB of a data block and a seed (R164 step 6). -/
def maskedDb (p : Params) (k : Nat) (db seed : List Byte) : List Byte :=
  xorBytes db (mgfMask p seed (k - p.hLen - 1))

/-- maskedSeed of a data block and a seed (R164 step 7). -/
def maskedSeed (p : Params) (k : Nat) (db seed : List Byte) : List Byte :=
  xorBytes seed (mgfMask p (maskedDb p k db seed) p.hLen)

theorem maskBlock_eq_cons (p : Params) (k : Nat) (db seed : List Byte) :
    maskBlock p k db seed = 0x00 :: (maskedSeed p k db seed ++ maskedDb p k db seed) := rfl

theorem length_maskedSeed (c : Cfg) {k : Nat} {db seed : List Byte} (hs : seed.length = c.params.hLen) :
    (maskedSeed c.params k db seed).length = c.params.hLen := by
  rw [maskedSeed, length_xorBytes, length_mgfMask, hs, Nat.min_self]

/-- Where maskedSeed stands. -/
theorem sliceOf_maskBlock_seed (c : Cfg) {k : Nat} {db seed : List Byte} (hs : seed.length = c.params.hLen) :
    sliceOf (maskBlock c.params k db seed) 1 (1 + c.params.hLen) = maskedSeed c.params k db seed := by
  rw [sliceOf, maskBlock_eq_cons, Nat.add_comm, List.take_succ_cons, List.drop_one, List.tail_cons]
  exact List.take_left' (length_maskedSeed c hs)

/-- Where maskedDB stands. -/
theorem sliceOf_maskBlock_db (c : Cfg) {k : Nat} {db seed : List Byte} (hs : seed.length = c.params.hLen)
    (hlen : (maskBlock c.params k db seed).length = k) :
    sliceOf (maskBlock c.params k db seed) (1 + c.params.hLen) k = maskedDb c.params k db seed := by
  rw [sliceOf, List.take_of_length_le hlen.le, maskBlock_eq_cons, Nat.add_comm, List.drop_succ_cons]
  exact List.drop_left' (length_maskedSeed c hs)

theorem xorBytes_maskedDb (c : Cfg) {k : Nat} {db seed : List Byte} (hdb : db.length = k - c.params.hLen - 1) :
    xorBytes (maskedDb c.params k db seed) (mgfMask c.params seed (k - c.params.hLen - 1)) = db :=
  xorBytes_cancel (by rw [length_mgfMask, hdb])

theorem xorBytes_maskedSeed (c : Cfg) {k : Nat} {db seed : List Byte} (hs : seed.length = c.params.hLen) :
    xorBytes (maskedSeed c.params k db seed) (mgfMask c.params (maskedDb c.params k db seed) c.params.hLen) = seed :=
  xorBytes_cancel (by rw [length_mgfMask, hs])

/-- Settles O22: the two slices are maskedSeed and maskedDB, and XOR with its mask undoes each. -/
theorem encodedMessageShape : Obligations.EncodedMessageShape := by
  intro c k msg lab seed hfit hseed
  have hdb := length_dataBlock c (lab := lab) hfit
  have hlen := length_encodeTransform c (lab := lab) hfit hseed
  have hslice := sliceOf_maskBlock_db c hseed hlen
  refine ⟨hdb, hlen, rfl, ?_, ?_⟩
  · rw [encodeTransform, hslice]
    exact xorBytes_maskedDb c hdb
  · rw [encodeTransform, hslice, sliceOf_maskBlock_seed c hseed]
    exact xorBytes_maskedSeed c hseed

/-! ### Success (R163 to R165) -/

theorem finishOf_encode_of_checks {s : State} (src : SeedSrc) (h : s.encodeChecks = none) :
    finishOf (.encode src) s =
      .ok (encodeTransform s.cfg.params s.k.toNat s.message s.label (s.encodeSeed src)) := by
  rw [finishOf, State.encodeCmd, h]

/-- PS fills DB up to the message's own length register (R164 steps 3 to 5). -/
theorem dataBlock_operands (s : State) : dataBlock s.cfg.params s.k.toNat s.message s.label =
    hash s.cfg.params s.label ++ zeros (s.k.toNat - 2 * s.cfg.params.hLen - 2 - s.msgLen.toNat) ++ [0x01] ++
      s.message := by
  rw [dataBlock, length_message]

/-- Settles O20: ENCODE finishes with the transform of its operands, which has K bytes. -/
theorem encodeWritesTheEncodedMessage : Obligations.EncodeWritesTheEncodedMessage := by
  intro s src hk hfit hlabel
  have hexec := exec_eq (.encode src) s
  obtain ⟨hseq, hdone, -⟩ := exec_registers hexec
  have hok := exec_of_ok hexec (finishOf_encode_of_checks src ((encodeChecks_eq_none s).2 ⟨hk, hfit, hlabel⟩))
  rw [length_encodeTransform _ (by rwa [length_message]) (length_encodeSeed s src)] at hok
  obtain ⟨hcode, hdetail, hlen, hresult, htail⟩ := hok
  rw [encodeTransform, dataBlock_operands] at hresult
  have hem := BitVec.eq_of_toNat_eq hlen
  cases src with
  | fresh | seedBuf => exact ⟨_, hexec, hseq, hdone, hcode, hdetail, hem, hresult, htail⟩

/-! ### The first failing check (R161, R162, R220) -/

theorem finishOf_encode_of_failing {s : State} {d : LengthDetail} (src : SeedSrc) (h : s.encodeChecks = some d) :
    finishOf (.encode src) s = .err (.length d) := by
  rw [finishOf, State.encodeCmd, h]

/-- HASH_INPUT, the last check, cannot fail: a label that passes LABEL_RANGE is short enough for the hash (P6). -/
theorem encodeChecks_eq (s : State) : s.encodeChecks =
    if s.cfg.params.kMax < s.k.toNat then some .kRange
    else if (s.k.toNat : Int) - 2 * s.cfg.params.hLen - 2 < s.msgLen.toNat then some .msgTooLong
    else if s.cfg.params.lMax < s.labelLen.toNat then some .labelRange
    else none := by
  have hp := (Params.wellFormed_iff _).1 s.cfg.ok
  simp only [State.encodeChecks, firstFailing, decide_eq_true_eq]
  refine if_congr Iff.rfl rfl (if_congr Iff.rfl rfl ?_)
  split_ifs with hlabel hhash
  · rfl
  · omega
  · rfl

/-- The outcome that ENCODE records is its failing check's (R165, R166). -/
theorem exec_encode_outcome {src : SeedSrc} {s t : State} (h : exec (.encode src) s = .next t) :
    (t.errCode, t.errDetail) = s.encodeChecks.elim (0, 0) fun d => (1, d.code) := by
  cases hd : s.encodeChecks with
  | none =>
    obtain ⟨hcode, hdetail, -⟩ := exec_of_ok h (finishOf_encode_of_checks src hd)
    exact Prod.ext hcode hdetail
  | some d =>
    obtain ⟨hcode, hdetail, -⟩ := exec_of_err h (finishOf_encode_of_failing src hd)
    exact Prod.ext hcode hdetail

/-- An ENCODE that records LENGTH_ERROR has erased its output pair (R165). -/
theorem exec_encode_erased {src : SeedSrc} {s t : State} (h : exec (.encode src) s = .next t) (hcode : t.errCode = 1) :
    t.emLen = 0 ∧ ∀ j, j < s.cfg.params.kMax → t.mem.read (0x4000 + j) = 0 := by
  cases hd : s.encodeChecks with
  | none =>
    obtain ⟨hzero, -⟩ := exec_of_ok h (finishOf_encode_of_checks src hd)
    exact absurd (hzero.symm.trans hcode) (by decide)
  | some d =>
    obtain ⟨-, -, herased⟩ := exec_of_err h (finishOf_encode_of_failing src hd)
    exact herased

/-- Settles O21, check by check in R161's order. -/
theorem encodeFailsInOrder : Obligations.EncodeFailsInOrder := by
  intro s src
  have hexec := exec_eq (.encode src) s
  refine ⟨_, hexec, ?_, exec_encode_erased hexec⟩
  rw [exec_encode_outcome hexec, encodeChecks_eq]
  split_ifs <;> rfl

end Sys2Proof.Machine
end

section
/-! DECODE (R180 to R193): the structure of an EM, how the command finishes, its first failing check, and the round
trip with ENCODE. -/
namespace Sys2Proof.Machine

/-! ### The structure of a decoded block (R185 to R188) -/

/-- `j` is the separator of DB: a 0x01, and every byte from H_LEN up to it is 0x00 (R186). -/
def IsSeparator (p : Params) (db : List Byte) (j : Nat) : Prop :=
  p.hLen ≤ j ∧ db[j]? = some 0x01 ∧ ∀ i, p.hLen ≤ i → i < j → db[i]? = some 0x00

theorem IsSeparator.separator_eq {p : Params} {db : List Byte} {j : Nat} (h : IsSeparator p db j) :
    separator p db = some j := by
  obtain ⟨hle, hone, hzeros⟩ := h
  exact separator_eq_some.2 ⟨hle, ⟨0x01, hone, by decide⟩, hzeros⟩

theorem sepBad_eq_false_iff (p : Params) (db : List Byte) : sepBad p db = false ↔ ∃ j, IsSeparator p db j := by
  constructor
  · intro h
    unfold sepBad at h
    split at h
    · cases h
    · next j hj =>
      obtain ⟨hle, -, hzeros⟩ := separator_eq_some.1 hj
      exact ⟨j, hle, not_not.1 (of_decide_eq_false h), hzeros⟩
  · rintro ⟨j, hj⟩
    have hsep := hj.separator_eq
    obtain ⟨-, hone, -⟩ := hj
    simp only [sepBad, hsep, hone, ne_eq, not_true_eq_false, decide_false]

theorem labelBad_eq_false_iff (p : Params) (db lab : List Byte) :
    labelBad p db lab = false ↔ db.take p.hLen = hash p lab := by
  rw [labelBad, decide_eq_false_iff_not, not_not]

/-- `bad` of R187 is the disjunction of its three conditions. -/
theorem structureBad_eq_false_iff (p : Params) (y : Byte) (db lab : List Byte) : structureBad p y db lab = false ↔
    y = 0x00 ∧ db.take p.hLen = hash p lab ∧ ∃ j, IsSeparator p db j := by
  rw [structureBad, Bool.or_eq_false_iff, Bool.or_eq_false_iff, decide_eq_false_iff_not, not_not,
    labelBad_eq_false_iff, sepBad_eq_false_iff, and_assoc]

theorem IsSeparator.extractMessage_eq {p : Params} {db : List Byte} {j : Nat} (h : IsSeparator p db j) :
    extractMessage p db = db.drop (j + 1) := by
  rw [extractMessage, h.separator_eq]

section
variable {p : Params} {k : Nat} {em lab : List Byte}

theorem decodeTransform_of_good (h : structureBad p (em.headD 0x00) (unmask p k em) lab = false) :
    decodeTransform p k em lab = .ok (extractMessage p (unmask p k em)) := by
  simp only [decodeTransform, h, Bool.false_eq_true, if_false]

/-- Whichever condition fails, the transform is the one DECRYPTION_ERROR (R187). -/
theorem decodeTransform_of_bad (h : structureBad p (em.headD 0x00) (unmask p k em) lab = true) :
    decodeTransform p k em lab = .err .decryption := by
  simp only [decodeTransform, h, if_true]

/-- The transform of a well-structured EM is the message after the separator (R188). -/
theorem decodeTransform_of_separator {j : Nat} (hy : em.headD 0x00 = 0x00)
    (hlabel : (unmask p k em).take p.hLen = hash p lab) (hj : IsSeparator p (unmask p k em) j) :
    decodeTransform p k em lab = .ok ((unmask p k em).drop (j + 1)) := by
  rw [decodeTransform_of_good ((structureBad_eq_false_iff ..).2 ⟨hy, hlabel, j, hj⟩), hj.extractMessage_eq]

end

/-! ### The operands of DECODE -/

/-- The DB that DECODE unmasks from EM_BUF (R184). -/
def State.decodedBlock (s : State) : List Byte := unmask s.cfg.params s.k.toNat s.emInput

theorem length_decodedBlock (s : State) : s.decodedBlock.length = s.k.toNat - s.cfg.params.hLen - 1 :=
  length_unmask s.cfg (length_emInput s)

/-- maskedDB of an EM of k bytes is all that follows maskedSeed. -/
theorem unmask_of_length {p : Params} {k : Nat} {em : List Byte} (h : em.length = k) : unmask p k em =
    xorBytes (em.drop (1 + p.hLen)) (mgfMask p
      (xorBytes (sliceOf em 1 (1 + p.hLen)) (mgfMask p (em.drop (1 + p.hLen)) p.hLen)) (k - p.hLen - 1)) := by
  have hdb : sliceOf em (1 + p.hLen) k = em.drop (1 + p.hLen) := by rw [sliceOf, List.take_of_length_le h.le]
  simp only [unmask, hdb]

theorem headD_eq_iff_of_length_pos {em : List Byte} (h : 0 < em.length) :
    em.headD 0x00 = 0x00 ↔ em[0]? = some 0x00 := by
  cases em with
  | nil => cases h
  | cons y rest => exact (Option.some_inj (a := y)).symm

/-! ### How DECODE finishes (R181, R187 to R189) -/

theorem finishOf_decode_of_checks {s : State} (h : s.decodeChecks = none) :
    finishOf .decode s = decodeTransform s.cfg.params s.k.toNat s.emInput s.label := by
  rw [finishOf, State.decodeCmd, h]

theorem finishOf_decode_of_failing {s : State} {d : LengthDetail} (h : s.decodeChecks = some d) :
    finishOf .decode s = .err (.length d) := by
  rw [finishOf, State.decodeCmd, h]

/-- ERRCODE 2 has one cause (R211, R214). -/
theorem Finish.eq_decryption_of_errCode {f : Finish} (h : f.errCode = 2) : f = .err .decryption := by
  cases f with
  | ok r => exact absurd h (by decide : (0 : BitVec 4) ≠ 2)
  | err e =>
    cases e with
    | length d => exact absurd h (by decide : (1 : BitVec 4) ≠ 2)
    | decryption => rfl

/-- The state in which every DECRYPTION_ERROR ends, whatever its cause (R187, R189). -/
theorem complete_decryption (s : State) : s.complete .msg (.err .decryption) =
    { s with mem := (s.complete .msg (.err .decryption)).mem, msgLen := 0, errCode := 2, errDetail := 0, done := true,
             seq := .idle } := rfl

theorem statusWord_complete_decryption {s : State} (h : s.busyViol = false) :
    (s.complete .msg (.err .decryption)).statusWord = 0x00000206 := by
  rw [State.statusWord, State.complete_busyViol, h]
  change bitAt false 0 ||| bitAt true 1 ||| bitAt true 2 ||| fieldAt 2 8 ||| fieldAt 0 16 ||| bitAt false 24 = _
  decide

/-- A DECODE that records ERRCODE 2 ends in that state. -/
theorem exec_decode_of_decryption {s t : State} (h : exec .decode s = .next t) (hcode : t.errCode = 2) :
    t = s.complete .msg (.err .decryption) := by
  obtain ⟨hrecorded, -⟩ := exec_outcome h
  rw [exec_eq, Finish.eq_decryption_of_errCode (hrecorded.symm.trans hcode)] at h
  exact (Host.Outcome.next.inj h).symm

/-- A command that records an error has erased its output pair (R218). -/
theorem exec_erased {i : Instr} {s t : State} (h : exec i s = .next t) (hcode : t.errCode ≠ 0) :
    (outPairOf i).len t = 0 ∧
    ∀ j, j < (outPairOf i).buf.cap s.cfg.params → t.mem.read ((outPairOf i).buf.base + j) = 0 := by
  cases hf : finishOf i s with
  | ok r =>
    obtain ⟨hzero, -⟩ := exec_of_ok h hf
    exact absurd hzero hcode
  | err e =>
    obtain ⟨-, -, herased⟩ := exec_of_err h hf
    exact herased

/-- Settles O26: the EM is well structured, and its message has k − h − 2 − j bytes. -/
theorem decodeRecoversTheMessage : Obligations.DecodeRecoversTheMessage := by
  intro s j hk hem hmin hlabelLen h k em maskedSeed maskedDb seed db hy hlabel hle hone hzeros
  have hdb : s.decodedBlock = db := unmask_of_length (length_emInput s)
  have hhead : s.emInput.headD 0x00 = 0x00 :=
    (headD_eq_iff_of_length_pos (by rw [length_emInput]; omega)).2 hy
  have hj : IsSeparator s.cfg.params s.decodedBlock j := by
    rw [hdb]
    exact ⟨hle, hone, hzeros⟩
  have hfinish : finishOf .decode s = .ok (s.decodedBlock.drop (j + 1)) :=
    (finishOf_decode_of_checks ((decodeChecks_eq_none s).2 ⟨hk, hem, hmin, hlabelLen⟩)).trans
      (decodeTransform_of_separator hhead ((congrArg _ hdb).trans hlabel) hj)
  have hlen : (s.decodedBlock.drop (j + 1)).length = k - h - 2 - j := by
    rw [List.length_drop, length_decodedBlock]
    omega
  have hexec := exec_eq .decode s
  obtain ⟨hseq, hdone, -⟩ := exec_registers hexec
  have hok := exec_of_ok hexec hfinish
  rw [hlen, hdb] at hok
  exact ⟨_, hexec, hseq, hdone, hok⟩

/-- Settles O27: each of the three conditions makes the finish the one DECRYPTION_ERROR. -/
theorem decodeFailsUniformly : Obligations.DecodeFailsUniformly := by
  intro s hk hem hmin hlabelLen h k em maskedSeed maskedDb seed db hbad
  have hdb : s.decodedBlock = db := unmask_of_length (length_emInput s)
  have hhead := headD_eq_iff_of_length_pos (em := s.emInput) (by rw [length_emInput]; omega)
  have hfinish : finishOf .decode s = .err .decryption := by
    rw [finishOf_decode_of_checks ((decodeChecks_eq_none s).2 ⟨hk, hem, hmin, hlabelLen⟩)]
    refine decodeTransform_of_bad (Bool.eq_true_of_not_eq_false fun hgood => ?_)
    obtain ⟨hy, hlabel, hsep⟩ := (structureBad_eq_false_iff ..).1 hgood
    rw [← State.decodedBlock, hdb] at hlabel hsep
    rcases hbad with hy' | hlabel' | hsep'
    · exact hy' (hhead.1 hy)
    · exact hlabel' hlabel
    · exact hsep' hsep
  have hexec := exec_eq .decode s
  obtain ⟨-, -, -, herased⟩ := exec_of_err hexec hfinish
  obtain ⟨-, -, houtside⟩ := exec_reads hexec
  refine ⟨_, hexec, ?_, ?_, herased, houtside⟩
  · rw [hfinish]
    exact complete_decryption s
  · rw [hfinish]
    exact statusWord_complete_decryption

/-- Settles O28: both completions commit the same finish, MSG_BUF is erased in both, and the rest of memory stands. -/
theorem decodeFailuresAreIndistinguishable : Obligations.DecodeFailuresAreIndistinguishable := by
  intro s m hmem t t' ht ht' hcode hcode'
  obtain rfl := exec_decode_of_decryption ht hcode
  obtain rfl := exec_decode_of_decryption ht' hcode'
  refine ⟨rfl, fun a ha => ?_⟩
  obtain ⟨-, herased⟩ := exec_erased ht (by decide : (2 : BitVec 4) ≠ 0)
  obtain ⟨-, herased'⟩ := exec_erased ht' (by decide : (2 : BitVec 4) ≠ 0)
  obtain ⟨-, -, houtside⟩ := exec_reads ht
  obtain ⟨-, -, houtside'⟩ := exec_reads ht'
  by_cases hin : 0x1000 ≤ a ∧ a < 0x1000 + s.cfg.params.kMax
  · obtain ⟨j, rfl⟩ := Nat.exists_eq_add_of_le hin.1
    have hj : j < s.cfg.params.kMax := by omega
    exact (herased' j hj).trans (herased j hj).symm
  · have hout : a < 0x1000 ∨ 0x1000 + s.cfg.params.kMax ≤ a := by omega
    exact (houtside' a hout).trans ((hmem a ha).trans (houtside a hout).symm)

/-! ### The first failing check (R181, R190, R220) -/

/-- HASH_INPUT, the last check, cannot fail: a label that passes LABEL_RANGE is short enough for the hash (P6). -/
theorem decodeChecks_eq (s : State) : s.decodeChecks =
    if s.cfg.params.kMax < s.k.toNat then some .kRange
    else if s.emLen ≠ s.k then some .emLenMismatch
    else if s.k.toNat < 2 * s.cfg.params.hLen + 2 then some .kTooSmall
    else if s.cfg.params.lMax < s.labelLen.toNat then some .labelRange
    else none := by
  have hp := (Params.wellFormed_iff _).1 s.cfg.ok
  simp only [State.decodeChecks, firstFailing, decide_eq_true_eq]
  refine if_congr Iff.rfl rfl (if_congr Iff.rfl rfl (if_congr Iff.rfl rfl ?_))
  split_ifs with hlabel hhash
  · rfl
  · omega
  · rfl

theorem exec_decode_of_failing {s t : State} {d : LengthDetail} (h : exec .decode s = .next t)
    (hd : s.decodeChecks = some d) : t.errCode = 1 ∧ t.errDetail = d.code := by
  obtain ⟨hcode, hdetail, -⟩ := exec_of_err h (finishOf_decode_of_failing hd)
  exact ⟨hcode, hdetail⟩

/-- Once the length checks pass, DECODE recovers a message or reports DECRYPTION_ERROR, with no detail (R189). -/
theorem exec_decode_of_checks {s t : State} (h : exec .decode s = .next t) (hd : s.decodeChecks = none) :
    (t.errCode = 0 ∨ t.errCode = 2) ∧ t.errDetail = 0 := by
  have hfinish := finishOf_decode_of_checks hd
  cases hbad : structureBad s.cfg.params (s.emInput.headD 0x00) s.decodedBlock s.label with
  | false =>
    obtain ⟨hcode, hdetail, -⟩ := exec_of_ok h (hfinish.trans (decodeTransform_of_good hbad))
    exact ⟨.inl hcode, hdetail⟩
  | true =>
    obtain ⟨hcode, hdetail, -⟩ := exec_of_err h (hfinish.trans (decodeTransform_of_bad hbad))
    exact ⟨.inr hcode, hdetail⟩

/-- Settles O29, check by check in R181's order. -/
theorem decodeLengthChecksInOrder : Obligations.DecodeLengthChecksInOrder := by
  intro s
  have hexec := exec_eq .decode s
  have hchecks := decodeChecks_eq s
  refine ⟨_, hexec, fun hk => ?_, fun hk hem => ?_, fun hk hem hmin => ?_, fun hk hem hmin hlabel => ?_,
    fun hk hem hmin hlabel => ?_, exec_erased hexec⟩
  · rw [if_pos hk] at hchecks
    exact exec_decode_of_failing hexec hchecks
  · rw [if_neg hk.not_gt, if_pos hem] at hchecks
    exact exec_decode_of_failing hexec hchecks
  · rw [if_neg hk.not_gt, if_neg (not_not.2 hem), if_pos hmin] at hchecks
    exact exec_decode_of_failing hexec hchecks
  · rw [if_neg hk.not_gt, if_neg (not_not.2 hem), if_neg hmin.not_gt, if_pos hlabel] at hchecks
    exact exec_decode_of_failing hexec hchecks
  · exact exec_decode_of_checks hexec ((decodeChecks_eq_none s).2 ⟨hk, hem, hmin, hlabel⟩)

/-! ### The round trip (R193) -/

/-- The separator's place in the data block of a message: after lHash and PS (R164). -/
def separatorIndex (p : Params) (k : Nat) (msg : List Byte) : Nat := p.hLen + (k - 2 * p.hLen - 2 - msg.length)

theorem take_dataBlock (c : Cfg) (k : Nat) (msg lab : List Byte) :
    (dataBlock c.params k msg lab).take c.params.hLen = hash c.params lab := by
  rw [dataBlock, List.append_assoc, List.append_assoc]
  exact List.take_left' (length_hash c lab)

/-- lHash and PS, all that stands before the separator. -/
theorem length_hash_append_zeros (c : Cfg) (k : Nat) (msg lab : List Byte) :
    (hash c.params lab ++ zeros (k - 2 * c.params.hLen - 2 - msg.length)).length = separatorIndex c.params k msg := by
  rw [List.length_append, length_hash, length_zeros, separatorIndex]

theorem isSeparator_dataBlock (c : Cfg) (k : Nat) (msg lab : List Byte) :
    IsSeparator c.params (dataBlock c.params k msg lab) (separatorIndex c.params k msg) := by
  have hlen := length_hash_append_zeros c k msg lab
  refine ⟨Nat.le_add_right _ _, ?_, fun i hi hij => ?_⟩
  · rw [dataBlock, List.append_assoc, List.getElem?_append_right hlen.le, hlen, Nat.sub_self]
    rfl
  · rw [dataBlock, List.append_assoc, List.getElem?_append_left (hlen ▸ hij),
      List.getElem?_append_right ((length_hash c lab).trans_le hi), length_hash, zeros, List.getElem?_replicate, if_pos]
    rw [separatorIndex] at hij
    omega

theorem drop_dataBlock (c : Cfg) (k : Nat) (msg lab : List Byte) :
    (dataBlock c.params k msg lab).drop (separatorIndex c.params k msg + 1) = msg := by
  refine List.drop_left' ?_
  rw [List.length_append, length_hash_append_zeros]
  rfl

/-- The law of R193 for the two transforms. -/
theorem decodeTransform_encodeTransform (c : Cfg) {k : Nat} {msg lab seed : List Byte}
    (hfit : msg.length + 2 * c.params.hLen + 2 ≤ k) (hseed : seed.length = c.params.hLen) :
    decodeTransform c.params k (encodeTransform c.params k msg lab seed) lab = .ok msg := by
  have hdb : unmask c.params k (encodeTransform c.params k msg lab seed) = dataBlock c.params k msg lab :=
    unmask_maskBlock c (length_dataBlock c hfit) hseed (by omega)
  have htransform := decodeTransform_of_separator (headD_maskBlock c.params k (dataBlock c.params k msg lab) seed)
    ((congrArg _ hdb).trans (take_dataBlock c k msg lab)) (hdb ▸ isSeparator_dataBlock c k msg lab)
  rwa [← encodeTransform, hdb, drop_dataBlock] at htransform

/-- Settles O30: the checks pass, and the transforms undo each other. -/
theorem decodeInvertsEncode : Obligations.DecodeInvertsEncode := by
  intro s msg lab seed hmin hk hlab hseed hfit hem hemLen hlabelLen hlabel
  have hoperand : s.label = lab := by rw [State.label, hlabelLen, hlabel]
  have hfinish : finishOf .decode s = .ok msg := by
    rw [finishOf_decode_of_checks ((decodeChecks_eq_none s).2 ⟨hk, hemLen, hmin, hlabelLen.trans_le hlab⟩),
      State.emInput, hem, hoperand, decodeTransform_encodeTransform s.cfg hfit hseed]
  have hexec := exec_eq .decode s
  obtain ⟨hcode, -, hlen, hresult, -⟩ := exec_of_ok hexec hfinish
  exact ⟨_, hexec, hcode, hlen, hresult⟩

/-- Settles O31: the state after ENCODE meets the hypotheses of the round-trip law. -/
theorem encodeThenDecodeReturnsTheMessage : Obligations.EncodeThenDecodeReturnsTheMessage := by
  intro s src hk hfit hlabel
  obtain ⟨t, ht⟩ : ∃ t, exec (.encode src) s = .next t := ⟨_, exec_eq _ s⟩
  obtain ⟨-, -, hcfg, -, -, hkt, hlabelLen, -⟩ := exec_registers ht
  have hfit' : s.message.length + 2 * s.cfg.params.hLen + 2 ≤ s.k.toNat := by rwa [length_message]
  have hok := exec_of_ok ht (finishOf_encode_of_checks src ((encodeChecks_eq_none s).2 ⟨hk, hfit, hlabel⟩))
  rw [length_encodeTransform _ hfit' (length_encodeSeed s src)] at hok
  obtain ⟨-, -, hemLen, hem, -⟩ := hok
  have hlabelBuf : t.slice .label s.label.length = s.label := by
    rw [length_label]
    exact exec_slice_other ht nofun (hlabel.trans (cap_le s.cfg .label))
  obtain ⟨u, hu, hcode, hmsgLen, hmsg⟩ := decodeInvertsEncode t s.message s.label (s.encodeSeed src)
    (by rw [hcfg, hkt]; omega) (by rwa [hcfg, hkt]) (by rwa [hcfg, length_label]) (by rw [hcfg, length_encodeSeed])
    (by rwa [hcfg, hkt]) (by rw [hcfg, hkt]; exact hem) (by rw [hkt]; exact BitVec.eq_of_toNat_eq hemLen)
    (by rw [hlabelLen, length_label]) hlabelBuf
  rw [length_message] at hmsgLen hmsg
  exact ⟨t, u, ht, hu, hcode, BitVec.eq_of_toNat_eq hmsgLen, hmsg⟩

end Sys2Proof.Machine
end

section
/-! The commit of an outcome to an output pair (R217, R218): what a read then finds, and the one form of its state. -/
namespace Sys2Proof.Machine

/-- Completion adds SEQ and DONE to the commit, and no byte of memory. -/
theorem complete_mem_eq_commit_mem (s : State) (o : OutPair) (f : Finish) :
    (s.complete o f).mem = (s.commit o f).mem := rfl

/-- What reads find after a commit that fits: the result, zeros after it, every other byte as before. -/
theorem commit_reads {s : State} {o : OutPair} {f : Finish} (hf : f.result.length ≤ o.buf.cap s.cfg.params) :
    (s.commit o f).slice o.buf f.result.length = f.result ∧
    (∀ j, f.result.length ≤ j → j < o.buf.cap s.cfg.params → (s.commit o f).mem.read (o.buf.base + j) = 0) ∧
    (∀ a, a < o.buf.base ∨ o.buf.base + o.buf.cap s.cfg.params ≤ a → (s.commit o f).mem.read a = s.mem.read a) := by
  rw [State.slice, ← complete_mem_eq_commit_mem]
  exact ⟨slice_complete, fun _ => read_complete_tail, fun _ => read_complete_outside hf⟩

/-- A commit writes the output buffer, the length register and the outcome, and no other field. -/
theorem commit_eq_setLen (s : State) (o : OutPair) (f : Finish) :
    s.commit o f = o.setLen (o.len (s.commit o f))
      { s with mem := (s.commit o f).mem, errCode := f.errCode, errDetail := f.errDetail } := by
  cases o <;> rfl

theorem toNat_len_commit {s : State} {o : OutPair} {f : Finish} (hf : f.result.length ≤ o.buf.cap s.cfg.params) :
    (o.len (s.commit o f)).toNat = f.result.length := by
  have hcap := cap_le s.cfg o.buf
  rw [OutPair.len_commit, BitVec.toNat_ofNat, Nat.mod_eq_of_lt (by omega)]

/-- Settles O11: the result fits, so reads and the length register show it. -/
theorem commitOfSuccess : Obligations.CommitOfSuccess := by
  intro s o r hr
  obtain ⟨hresult, htail, houtside⟩ := commit_reads (f := .ok r) hr
  exact ⟨hresult, htail, houtside, toNat_len_commit (f := .ok r) hr, State.commit_errCode .., State.commit_errDetail ..,
    commit_eq_setLen s o (.ok r)⟩

/-- Settles O12: the result of a failure is empty, so the zeros after it fill the whole buffer. -/
theorem commitOfFailure : Obligations.CommitOfFailure := by
  intro s o e
  obtain ⟨-, htail, houtside⟩ := commit_reads (s := s) (o := o) (f := .err e) (Nat.zero_le _)
  refine ⟨fun j => htail j (Nat.zero_le j), houtside, ?_⟩
  have hlen : o.len (s.commit o (.err e)) = 0 := OutPair.len_commit ..
  rw [← hlen]
  exact commit_eq_setLen s o (.err e)

end Sys2Proof.Machine
end

section
/-! The core's turn, by SEQ, and a command word by SEQ and its decoding (R215, R216, R230). -/
namespace Sys2Proof.Machine

theorem withInputs_tail_of_nil {s : State} (h : s.inputs = []) : { s with inputs := s.inputs.tail } = s := by
  rw [h, List.tail_nil, ← h]

/-- Settles O6: the turn of a BUSY core, with no move to take off or with the turn as the first. -/
theorem stepRunsTheAcceptedCommand : Obligations.StepRunsTheAcceptedCommand := by
  intro s i hs hr
  refine ⟨fun hin => ?_, fun rest hin => ?_⟩
  · rw [step_core hs hr (.inl hin), withInputs_tail_of_nil hin]
  · rw [step_core hs hr (.inr ⟨rest, hin⟩), hin, List.tail_cons]

theorem step_idle_of_no_move {s : State} (hs : s.seq = .idle) (h : s.inputs = []) : step s = .next s := by
  simp only [step, State.nextMove, h, State.coreTurn, hs, ite_self]

/-- Settles O55: the turn of an IDLE core does nothing. -/
theorem idleKeepsItsState : Obligations.IdleKeepsItsState := fun _ hs =>
  ⟨step_idle_of_no_move hs, fun _ => step_core_idle hs⟩

/-- Settles O9: by SEQ and, when it is IDLE, by the decoding of the word. -/
theorem commandWordIsAccepted : Obligations.CommandWordIsAccepted := fun s v =>
  ⟨fun hs _ => serve_legal_command hs, fun hs _ => serve_illegal_command hs,
    fun hs => (busyWritesAreDropped s v hs).1 0x024 (List.mem_cons_self ..)⟩

end Sys2Proof.Machine
end

section
/-! Where irq can come from (R224, R225): each operation of the port, and then a step, by the irq it leaves. -/
namespace Sys2Proof.Machine

/-- irq is a function of DONE and IRQ_EN. -/
theorem State.irq_congr {s u : State} (hdone : u.done = s.done) (hen : u.irqEn = s.irqEn) : u.irq = s.irq := by
  rw [State.irq, State.irq, hdone, hen]

theorem resetArch_irq (s : State) : s.resetArch.irq = false := rfl

theorem driveRst_irq_imp {s : State} {l : Bool} (h : (s.driveRst l).irq = true) : s.irq = true := by
  by_cases hl : s.rst = l
  · rwa [State.driveRst_same hl] at h
  · rw [State.driveRst_change hl] at h
    exact absurd h (Bool.eq_false_iff.1 (resetArch_irq s))

/-- An accepted word leaves irq only where it is illegal and IRQ_EN is 1: a legal one clears DONE (R215). -/
theorem acceptCommand_irq_imp {s : State} {v : Word} (h : (s.acceptCommand v).irq = true) :
    s.irqEn = true ∧ ∃ x, decodeCmd v = .illegal x := by
  obtain ⟨hdone, hen⟩ := (State.irq_eq_true _).1 h
  cases hd : decodeCmd v with
  | legal i =>
    rw [acceptCommand_legal hd] at hdone
    exact absurd hdone Bool.false_ne_true
  | illegal x =>
    rw [acceptCommand_illegal hd] at hen
    exact ⟨hen, x, rfl⟩

/-- A register other than CTRL, CMD and STATUS holds neither DONE nor IRQ_EN. -/
theorem writeReg_irq_other (s : State) {r : RegName} (hr : r ∉ [RegName.ctrl, .cmd, .status]) (v : Word) :
    (s.writeReg r v).irq = s.irq := by
  have hdropped : ∀ u : State, u.irq = s.irq → (s.unlessBusy u).irq = s.irq := fun u hu => by
    rw [State.unlessBusy]
    split
    · exact State.irq_congr rfl rfl
    · exact hu
  cases r with
  | ctrl | cmd | status => exact absurd hr (by decide)
  | k | msgLen | labelLen | emLen | inLen | maskLen => exact hdropped _ rfl
  | id | version | paramHlen | paramKmax | paramLmax | paramInmax | paramOutmax | outLen => rfl

/-- irq after a register write was there before, or the write is an illegal command word or enables the interrupt. -/
theorem writeReg_irq_imp {s : State} {r : RegName} {v : Word} (h : (s.writeReg r v).irq = true) :
    s.irq = true ∨
    (r = .cmd ∧ s.seq = .idle ∧ s.irqEn = true ∧ ∃ x, decodeCmd v = .illegal x) ∨
    (r = .ctrl ∧ v.getLsbD 1 = false ∧ v.getLsbD 0 = true ∧ s.done = true) := by
  by_cases hr : r ∈ [RegName.ctrl, .cmd, .status]
  · simp only [List.mem_cons, List.not_mem_nil, or_false] at hr
    rcases hr with rfl | rfl | rfl
    · rw [State.writeReg] at h
      split at h
      next => exact absurd h (Bool.eq_false_iff.1 (resetArch_irq s))
      next hbit =>
        obtain ⟨hdone, hen⟩ := (State.irq_eq_true _).1 h
        exact .inr (.inr ⟨rfl, Bool.eq_false_iff.2 hbit, hen, hdone⟩)
    · rw [State.writeReg] at h
      by_cases hs : s.seq = .idle
      · rw [unlessBusy_idle hs] at h
        exact .inr (.inl ⟨rfl, hs, acceptCommand_irq_imp h⟩)
      · rw [unlessBusy_busy hs] at h
        exact .inl h
    · rw [State.writeReg, writeStatus_eq] at h
      obtain ⟨hdone, hen⟩ := (State.irq_eq_true _).1 h
      dsimp only at hdone
      split at hdone
      · exact absurd hdone Bool.false_ne_true
      · exact .inl ((State.irq_eq_true s).2 ⟨hdone, hen⟩)
  · exact .inl (writeReg_irq_other s hr v ▸ h)

/-- irq after a transaction was there before, or the transaction is one of the two writes that raise it (R224). -/
theorem serve_irq_imp {s : State} {t : Transaction} (h : (s.serve t).irq = true) :
    s.irq = true ∨ t.kind = .write ∧
      ((t.off = 0x024 ∧ s.seq = .idle ∧ s.irqEn = true ∧ ∃ x, decodeCmd t.wdata = .illegal x) ∨
        (t.off = 0x020 ∧ t.wdata.getLsbD 1 = false ∧ t.wdata.getLsbD 0 = true ∧ s.done = true)) := by
  cases hsup : t.supported with
  | false =>
    rw [serve_unsupported s hsup] at h
    exact .inl h
  | true =>
    cases hk : t.kind with
    | read =>
      obtain ⟨a, n, hread, -⟩ := readsHaveNoSideEffect s t hk
      rw [hread] at h
      exact .inl h
    | write =>
      rw [serve_write s hsup hk] at h
      rcases memWrite_cases s t.off.toNat t.wdata with he | ⟨r, hoff, he⟩ | ⟨b, o, -, -, he⟩
      · rw [he] at h
        exact .inl h
      · rw [he] at h
        rcases writeReg_irq_imp h with hold | ⟨rfl, hcmd⟩ | ⟨rfl, hctrl⟩
        · exact .inl hold
        · exact .inr ⟨rfl, .inl ⟨BitVec.eq_of_toNat_eq hoff, hcmd⟩⟩
        · exact .inr ⟨rfl, .inr ⟨BitVec.eq_of_toNat_eq hoff, hctrl⟩⟩
      · obtain ⟨m, f, hw⟩ := writeWindow_kept s b o t.wdata
        rw [he, hw] at h
        exact .inl h

/-- Settles O51, by the kinds of a step: a rest and a move of rst raise nothing. -/
theorem irqRisesOnlyByCompletion : Obligations.IrqRisesOnlyByCompletion := by
  intro s t hstep hlow hhigh
  have hnot : s.irq ≠ true := Bool.eq_false_iff.1 hlow
  rcases step_cases hstep with ⟨i, -, -, hs, hexec⟩ | ⟨-, -, rfl⟩ | ⟨tr, rest, hin, rfl⟩ | ⟨l, rest, -, rfl⟩
  · obtain ⟨hidle, hdone, -, hen, -⟩ := exec_registers hexec
    rw [State.irq_of_done hdone, hen] at hhigh
    exact .inl ⟨i, hs, hhigh, hidle⟩
  · exact absurd hhigh hnot
  · rw [State.port] at hhigh
    split at hhigh
    · exact absurd hhigh hnot
    · obtain ⟨hk, ⟨hoff, hs, hen, hillegal⟩ | ⟨hoff, hbit, hset, hdone⟩⟩ := (serve_irq_imp hhigh).resolve_left hnot
      · exact .inr (.inl ⟨tr, rest, hin, hk, hoff, hs, hen, hillegal⟩)
      · exact .inr (.inr ⟨tr, rest, hin, hk, hoff, hbit, hset, hdone⟩)
  · exact absurd (driveRst_irq_imp hhigh) hnot

end Sys2Proof.Machine
end

section
/-! Bounded progress of an accepted command (R216, R233, R254). -/
namespace Sys2Proof.Machine

/-- When rst is moved next, the machine follows it. -/
theorem step_rst {s : State} {l : Bool} {rest : List Input} (h : s.inputs = .rst l :: rest) :
    step s = .next ({ s with inputs := rest }.driveRst l) := by
  simp only [step, State.nextMove, h]

/-- A move that resets nothing: no soft reset and no assertion of rst. -/
def Input.NoReset : Input → Prop
  | .transact t => isSoftReset t = false
  | .core => True
  | .rst level => level = false

/-- With rst low, a move that resets nothing and is not the core's turn holds the command and is taken off the moves. -/
theorem step_held {s : State} {x : Input} {rest : List Input} (hs : s.seq ≠ .idle) (hr : s.rst = false)
    (hin : s.inputs = x :: rest) (hx : x.NoReset) (hcore : x ≠ .core) :
    ∃ u, step s = .next u ∧ Held s u ∧ u.inputs = rest := by
  cases x with
  | transact t =>
    obtain ⟨hheld, hinputs⟩ := serve_busy_held (s := { s with inputs := rest }) hs hx
    exact ⟨_, stepServesTheNextTransaction s t rest hin hr, (Held.withInputs s rest).trans hheld, hinputs⟩
  | core => exact absurd rfl hcore
  | rst level =>
    have hsame : { s with inputs := rest }.driveRst level = { s with inputs := rest } :=
      State.driveRst_same (hr.trans hx.symm)
    exact ⟨_, (step_rst hin).trans (congrArg _ hsame), Held.withInputs s rest, rfl⟩

/-- Where no move to come resets, the core's turn comes within as many steps as there are moves, the command held. -/
theorem run_to_coreDue {moves : List Input} {s : State} (hs : s.seq ≠ .idle) (hr : s.rst = false)
    (hin : s.inputs = moves) (hmoves : ∀ x ∈ moves, x.NoReset) :
    ∃ n u, n ≤ moves.length ∧ Host.Core.run Sys2Proof.core n s = .next u ∧ Held s u ∧ coreDue u := by
  induction moves generalizing s with
  | nil => exact ⟨0, s, le_rfl, rfl, Held.refl s, .inl hin⟩
  | cons x rest ih =>
    by_cases hcore : x = .core
    · exact ⟨0, s, Nat.zero_le _, rfl, Held.refl s, .inr ⟨rest, hcore ▸ hin⟩⟩
    · obtain ⟨hx, hrest⟩ := List.forall_mem_cons.1 hmoves
      obtain ⟨v, hstep, hheld, hinputs⟩ := step_held hs hr hin hx hcore
      obtain ⟨n, u, hn, hrun, hu, hdue⟩ := ih (hheld.seq.trans_ne hs) (hheld.rst.trans hr) hinputs hrest
      exact ⟨n + 1, u, Nat.succ_le_succ hn, (run_succ_of_step hstep n).trans hrun, hheld.trans hu, hdue⟩

/-- Settles O54: the command is held until the core's turn, and its completion is the step after. -/
theorem acceptedCommandCompletes : Obligations.AcceptedCommandCompletes := by
  intro s i hs hr hsoft hrst
  have hmoves : ∀ x ∈ s.inputs, x.NoReset := fun x hx => by
    cases x with
    | transact t => exact hsoft t hx
    | core => trivial
    | rst level => exact Bool.eq_false_iff.2 fun hl => hrst (hl ▸ hx)
  obtain ⟨n, u, hn, hrun, hu, hdue⟩ := run_to_coreDue (by rw [hs]; nofun) hr rfl hmoves
  have hseq : u.seq = .busy i := hu.seq.trans hs
  have hexec := exec_eq i { u with inputs := u.inputs.tail }
  obtain ⟨hidle, hdone, -⟩ := exec_registers hexec
  exact ⟨n, u, _, hn, hrun, hseq, (step_core hseq (hu.rst.trans hr) hdue).trans hexec, hidle, hdone⟩

end Sys2Proof.Machine
end

section
/-! Reset: the soft reset by CTRL (R241) and the reset input (R240). -/
namespace Sys2Proof.Machine

/-- Settles O49: by bit 1, the branch the CTRL register's own write takes. -/
theorem softResetClearsEverything : Obligations.SoftResetClearsEverything := by
  intro s v
  have hserve : s.serve (writeOf 0x020 v) = { s.writeReg .ctrl v with answer := some .written } :=
    serve_write_reg s .ctrl v
  rw [hserve, State.writeReg]
  split
  · -- bit 1 set: every field of the reset state is a literal
    rfl
  · -- bit 1 clear: IRQ_EN alone
    rfl

/-- While rst is asserted a transaction is given no answer and changes nothing else. -/
theorem port_of_rst_high {s : State} (hr : s.rst = true) (t : Transaction) : s.port t = { s with answer := none } := by
  rw [State.port, if_pos hr]

/-- While rst is asserted the core's turn does nothing, BUSY or not. -/
theorem step_core_rst_high {s : State} {rest : List Input} (hr : s.rst = true) (h : s.inputs = .core :: rest) :
    step s = .next { s with inputs := rest } := by
  simp only [step, State.nextMove, h, State.coreTurn, if_pos hr]

/-- Settles O50, by the move: a change of rst, no change of it, a transaction, the core's turn. -/
theorem hardwareReset : Obligations.HardwareReset := by
  refine ⟨fun s l rest hin hl => ?_, fun s l rest hin hl => ?_, fun s t rest hin hr => ?_,
    fun s rest hin hr => step_core_rst_high hr hin⟩
  · rw [step_rst hin, State.driveRst_change (s := { s with inputs := rest }) hl]
    rfl
  · rw [step_rst hin, State.driveRst_same (s := { s with inputs := rest }) hl]
  · rw [step_transact hin, port_of_rst_high (s := { s with inputs := rest }) hr]

end Sys2Proof.Machine
end
